-- ==== Sys2Proof/Word.lean ====
section
/-! DEFINITION. The types of the block: 00_scope.md rules R6 and R8, 10_state.md rule R20, 30_encoding.md rule R81. Their
sizes are numerals, once for each type; the configuration has a field for each size, proved to be the same number
(Config.sizes, log 24). -/

namespace Sys2Proof

/-- A slot's content (SLOT_BITS = 8), rule R8. -/
abbrev Byte := BitVec 8

/-- A 16-bit value (WORD_BITS = 16), rule R8. -/
abbrev Word := BitVec 16

/-- A bank address (ADDR_BITS = 6): every value 0x00 to 0x3F is a valid slot, rules R50 and R51. -/
abbrev Addr := BitVec 6

/-- The bank (NSLOTS = 64, the last address ADDR_MAX = 0x3F), rule R20. -/
abbrev Bank := Vector Byte 64

/-- A command word, rule R81. -/
abbrev Command := BitVec 32

/-- A command stream: the finite list of command words a context runs, rule R27. -/
abbrev Stream := List Command

end Sys2Proof
end

