-- ==== Sys2Proof/Config.lean ====
section
/-! DEFINITION. What is fixed for the machine: the configuration (every row of 00_scope.md rule R6 and the parameters of rule
R7: a structure, so that a statement ranges over them), and the free values, which have no body. -/

namespace Sys2Proof

/-- Source 1 is BUS, the bus-transaction handler (rules R26, R192). -/
def Config.busSource : Nat := 1
/-- Source 2 is CTL, the periodic control-loop handler (rules R26, R192). -/
def Config.ctlSource : Nat := 2

/-- The static region of an address (rules R12, R52). -/
inductive Region where
  | readOnly
  | readWrite
  | safeReadWrite
  deriving DecidableEq, Repr

/-- A bit of the bank: a slot and a bit number (rule R8). -/
structure BitPos where
  slot : Addr
  bit  : Fin 8
  deriving DecidableEq, Repr

/-- An entry of DEFAULTS (rule R162). Addresses are in 0x00 to 0x3F by their type (rule R163 (a)). -/
inductive DefaultEntry where
  | byte (a : Addr) (v : Byte)
  | word (ah al : Addr) (w : Word)
  | bits (a : Addr) (m v : Byte)
  deriving DecidableEq, Repr

/-- The configuration of a launch (rules R6, R7, R199): named and open parameters of the spec, constant during a run. The
rows of rule R6 are fields by that rule, though the source fixes their values (sizes, Config.statedBounds; log 24). -/
structure Config where
  /-- NSLOTS: the number of slots of the bank (rule R6). -/
  nslots : Nat
  /-- ADDR_MAX: the last address of the bank (rule R6). -/
  addrMax : Nat
  /-- ADDR_BITS: the width of an address (rule R6). -/
  addrBits : Nat
  /-- SLOT_BITS: the width of a slot (rule R6). -/
  slotBits : Nat
  /-- WORD_BITS: the width of a 16-bit value (rule R6). -/
  wordBits : Nat
  /-- The five have the values the source fixes, which are the sizes of the types Bank, Addr, Byte and Word (log 24). -/
  sizes : nslots = 64 ∧ addrMax = 0x3F ∧ addrBits = 6 ∧ slotBits = 8 ∧ wordBits = 16
  /-- RO_LO: first address of the Read-Only region (rules R6, R52). -/
  roLo : Addr
  /-- RO_HI: last address of the Read-Only region. -/
  roHi : Addr
  /-- RW_LO: first address of the Read-Write region. -/
  rwLo : Addr
  /-- RW_HI: last address of the Read-Write region. -/
  rwHi : Addr
  /-- SRW_LO: first address of the Safe-Read-Write region. -/
  srwLo : Addr
  /-- SRW_HI: last address of the Safe-Read-Write region. -/
  srwHi : Addr
  /-- FLAGS_HI_ADDR (rule R32, decision D8). -/
  flagsHi : Addr
  /-- FLAGS_LO_ADDR, the slot that holds the gate (rule R32, decision D8). -/
  flagsLo : Addr
  /-- GATE_BIT (rule R33; a named configuration field by 90_conflicts.md C6). -/
  gateBit : Fin 8
  /-- PWM_FLAG, OPEN (rule R34, decision D10): plain storage, nothing in the block reads it. -/
  pwmFlag : BitPos
  /-- DEFAULTS, OPEN (rule R162, decision D16). -/
  defaults : List DefaultEntry
  /-- NIRQ, at least 2, OPEN upward (rule R26, decision D19). -/
  nirq : Nat
  /-- SAME_SOURCE_REENTRY, OPEN (rule R196 (c), decision D19). -/
  sameSourceReentry : Bool
  deriving DecidableEq, Repr

/-- The region bounds have the values the source fixes (rules R6, R52, R53). -/
abbrev Config.statedBounds (c : Config) : Prop :=
  c.roLo = 0x00 ∧ c.roHi = 0x0F ∧ c.rwLo = 0x10 ∧ c.rwHi = 0x1F ∧ c.srwLo = 0x20 ∧ c.srwHi = 0x3F

/-- DEFAULTS_REF, the reference instance of rule R165. -/
def Config.defaultsRef : List DefaultEntry :=
  [.word 0x10 0x11 0x0200, .bits 0x05 0x02 0x02, .byte 0x20 0x10]

/-- The reference configuration of 95_test_vectors.md (values of rules R6, R7 and R165).
DESIGN CHOICE (logs 8, 10, 11, 12), unsafe for a statement that names it; statements range over every configuration. -/
def Config.reference : Config where
  nslots := 64
  addrMax := 0x3F
  addrBits := 6
  slotBits := 8
  wordBits := 16
  sizes := ⟨rfl, rfl, rfl, rfl, rfl⟩
  roLo := 0x00
  roHi := 0x0F
  rwLo := 0x10
  rwHi := 0x1F
  srwLo := 0x20
  srwHi := 0x3F
  flagsHi := 0x04
  flagsLo := 0x05
  gateBit := 0
  pwmFlag := ⟨0x05, 1⟩
  defaults := Config.defaultsRef
  nirq := 2
  sameSourceReentry := false

/-! ### Free values (rule R9, draw): no body, so nothing can be proved of what they are -/

/-- POR_BANK of State.reset (rules R7, R38): the byte of each slot at power-on, unspecified. A launch names its own
(Launch.bank). DESIGN CHOICE (log 2). -/
opaque Config.porByte : Nat → Byte

/-- What c.sv holds in a fresh context, where the spec gives no value (rules R38, R196). DESIGN CHOICE (log 3). -/
opaque Config.freshSv : Nat → Bool

/-- What c.t holds in a fresh context, where the spec gives no value (rules R38, R196). DESIGN CHOICE (log 3). -/
opaque Config.freshT : Nat → Byte

/-- What c.res holds in a fresh context, where the spec gives no value (rules R38, R196). DESIGN CHOICE (log 3). -/
opaque Config.freshRes : Nat → Word

/-- Which enabled move happens where the state's own list names none (rules R194, R197). DESIGN CHOICE (log 4). -/
opaque Config.freePick : Nat → Nat

end Sys2Proof
end

