-- ==== Sys2Proof/Machine/Operands.lean ====
section
/-! DEFINITION. The computations of 20_memory.md rule R65, the region function of rule R52, and the derived
functions of DEFAULTS of 43_lifecycle.md rule R162. -/

namespace Sys2Proof

/-! ### Numbers as values of the types, at the widths the configuration names (rule R6) -/

/-- The address of a number. -/
def Config.addr (c : Config) (a : Nat) : Addr := (BitVec.ofNat c.addrBits a).cast c.sizes.2.2.1
/-- The byte of a number. -/
def Config.byte (c : Config) (v : Nat) : Byte := (BitVec.ofNat c.slotBits v).cast c.sizes.2.2.2.1
/-- The 16-bit value of a number. -/
def Config.word (c : Config) (w : Nat) : Word := (BitVec.ofNat c.wordBits w).cast c.sizes.2.2.2.2

end Sys2Proof

namespace Sys2Proof.Machine

/-- Combine (rules R54, R65): the 16-bit value with bits 15 to 8 from h and bits 7 to 0 from l. -/
def combine (h l : Byte) : Word := h ++ l

/-- The high byte w[15:8] (rule R65, split). -/
def hiByte (w : Word) : Byte := w.extractLsb' 8 8

/-- The low byte w[7:0] (rule R65, split). -/
def loByte (w : Word) : Byte := w.extractLsb' 0 8

/-- zext_16 of a byte (rules R8, R65, widen). -/
def widen (b : Byte) : Word := combine 0 b

/-- zext_16 of one bit: 0x0001 or 0x0000 (rules R31, R140). -/
def widenBit (b : Bool) : Word := if b then 0x0001 else 0x0000

/-- The 8-bit mask with bit k alone set (rule R65: 1 << GATE_BIT). -/
def bitMask (k : Fin 8) : Byte := 1#8 <<< k.val

/-- Bit test b[k] (rule R65). -/
def testBit (b : Byte) (k : Fin 8) : Bool := b.getLsbD k.val

/-- Bit set (rule R65): the other seven bits are preserved. -/
def setBit (b : Byte) (k : Fin 8) : Byte := b ||| bitMask k

/-- Bit clear (rule R65): the other seven bits are preserved. -/
def clearBit (b : Byte) (k : Fin 8) : Byte := b &&& ~~~(bitMask k)

/-- Masked merge (rule R65): the bits of v under the mask m, the bits of b elsewhere. -/
def mergeMasked (b m v : Byte) : Byte := (b &&& ~~~m) ||| (v &&& m)

/-- The region of an address by unsigned range tests (rule R52). In a well-formed configuration the third range is what
the first two leave; that other addresses count as it in an ill-formed one is a DESIGN CHOICE (log 24). -/
def region (c : Config) (a : Addr) : Region :=
  if c.roLo ≤ a ∧ a ≤ c.roHi then .readOnly
  else if c.rwLo ≤ a ∧ a ≤ c.rwHi then .readWrite
  else .safeReadWrite

/-! ### DEFAULTS (rule R162) -/

/-- The mask of bits an entry covers in slot a: 0xFF for Byte and Word entries, the mask of a Bits entry. -/
def entryCover (e : DefaultEntry) (a : Addr) : Byte :=
  match e with
  | .byte b _ => if a = b then 0xFF else 0x00
  | .word ah al _ => if a = ah ∨ a = al then 0xFF else 0x00
  | .bits b m _ => if a = b then m else 0x00

/-- The value an entry gives to slot a, meaningful under its cover. The low byte of a Word entry is written
second, so it wins where both addresses are the same (rule R123). -/
def entryValue (e : DefaultEntry) (a : Addr) : Byte :=
  match e with
  | .byte _ v => v
  | .word _ al w => if a = al then loByte w else hiByte w
  | .bits _ _ v => v

/-- cover(a): the OR of the covers of the entries. -/
def cover (ds : List DefaultEntry) (a : Addr) : Byte :=
  ds.foldl (fun acc e => acc ||| entryCover e a) 0

/-- dval(a): bit by bit, the value given by the last entry that covers the bit. -/
def dval (ds : List DefaultEntry) (a : Addr) : Byte :=
  ds.foldl (fun acc e => mergeMasked acc (entryCover e a) (entryValue e a)) 0

/-- The number of micro-steps of an entry (rule R161): Byte 1, Word 4, Bits 2. -/
def entrySteps (e : DefaultEntry) : Nat :=
  match e with
  | .byte _ _ => 1
  | .word _ _ _ => 4
  | .bits _ _ _ => 2

/-- The number of micro-steps of LDEF: the sum over the entries, and 1 for the empty list (rules R161, R236). -/
def ldefSteps (ds : List DefaultEntry) : Nat :=
  if ds = [] then 1 else (ds.map entrySteps).sum

/-- A micro-step index: the entry of DEFAULTS (0 outside LDEF) and the sub-phase (rules R28, R161). -/
structure Phase where
  entry : Nat
  sub   : Nat
  deriving DecidableEq, Repr

/-- Phase 0, which stands for (0, 0): between operations (rule R28). -/
def Phase.start : Phase := ⟨0, 0⟩

end Sys2Proof.Machine
end

