-- ==== Sys2Proof/Syntax.lean ====
section
/-! DEFINITION. The instruction set: one constructor per row of the opcode table (00_scope.md rule R11,
30_encoding.md rules R82 and R84). Operands have exactly the width of their field (rule R83), so every term is
an operation of the machine; out-of-range numbers exist only in source text (WellFormed.lean). -/

namespace Sys2Proof

inductive Instr where
  /-- RDB a: read byte (rule R110). -/
  | rdb (a : Addr)
  /-- WRB a, v: raw write of a byte (rule R111). -/
  | wrb (a : Addr) (v : Byte)
  /-- RDW ah, al: atomic read of a word (rule R120). -/
  | rdw (ah al : Addr)
  /-- WRW ah, al, w: atomic raw write of a word (rule R121). -/
  | wrw (ah al : Addr) (w : Word)
  /-- BWR a, v: bus-originated, gated write of a byte (rule R143). -/
  | bwr (a : Addr) (v : Byte)
  /-- WEQ: is write enabled (rule R140). -/
  | weq
  /-- WEN: enable writes (rule R141). -/
  | wen
  /-- WDS: disable writes (rule R142). -/
  | wds
  /-- INIT: zero the bank (rule R160). -/
  | init
  /-- LDEF: load the defaults (rule R161). -/
  | ldef
  /-- IEN: enable interrupt delivery (rule R180). -/
  | ien
  /-- IDS: disable interrupt delivery (rule R181). -/
  | ids
  deriving DecidableEq, Repr

end Sys2Proof
end

