-- ==== Sys2Proof/WellFormed.lean ====
section
/-! DEFINITION. Well-formedness: the ranges of source operands (30_encoding.md rules R89, R90: an operand outside
its range is an assembly error, not a truncation) and the constraints on a configuration (70_reset_and_hazards.md
rule R223). A term of Instr has operands of exactly their field's width, so every one is well formed. -/

namespace Sys2Proof

/-- One operation of source text before its numbers are checked (rules R89, R90): the twelve mnemonics and the
three pseudo-instructions, each operand a number of any size. -/
inductive SourceOp where
  | rdb (a : Nat)
  | wrb (a v : Nat)
  | rdw (ah al : Nat)
  | wrw (ah al w : Nat)
  | bwr (a v : Nat)
  | weq
  | wen
  | wds
  | init
  | ldef
  | ien
  | ids
  /-- RDF a: read the field at a. -/
  | rdf (a : Nat)
  /-- WRF a, w: write the field at a. -/
  | wrf (a w : Nat)
  /-- RDFLAGS: read the flags pair. -/
  | rdflags
  deriving DecidableEq, Repr

/-- addr of the grammar of rule R89. -/
def addrInRange (c : Config) (a : Nat) : Bool := decide (a ≤ c.addrMax)
/-- byte of the grammar of rule R89. -/
def byteInRange (c : Config) (v : Nat) : Bool := decide (v < 2 ^ c.slotBits)
/-- word of the grammar of rule R89. -/
def wordInRange (c : Config) (w : Nat) : Bool := decide (w < 2 ^ c.wordBits)
/-- The address of a field (rule R90): the field has a next slot. -/
def fieldInRange (c : Config) (a : Nat) : Bool := decide (a + 1 ≤ c.addrMax)

/-- Every operand of the source operation is in its range (rules R89, R90). -/
def SourceOp.wf (c : Config) (o : SourceOp) : Bool :=
  match o with
  | .rdb a => addrInRange c a
  | .wrb a v => addrInRange c a && byteInRange c v
  | .rdw ah al => addrInRange c ah && addrInRange c al
  | .wrw ah al w => addrInRange c ah && addrInRange c al && wordInRange c w
  | .bwr a v => addrInRange c a && byteInRange c v
  | .weq => true
  | .wen => true
  | .wds => true
  | .init => true
  | .ldef => true
  | .ien => true
  | .ids => true
  | .rdf a => fieldInRange c a
  | .wrf a w => fieldInRange c a && wordInRange c w
  | .rdflags => true

/-- The three regions follow one another and cover all addresses with no overlap (rule R52). -/
def Config.regionsCover (c : Config) : Bool :=
  decide (c.roLo.toNat = 0 ∧ c.rwLo.toNat = c.roHi.toNat + 1 ∧ c.srwLo.toNat = c.rwHi.toNat + 1 ∧
    c.srwHi.toNat = c.addrMax ∧ c.roLo ≤ c.roHi ∧ c.rwLo ≤ c.rwHi ∧ c.srwLo ≤ c.srwHi)

/-- The flags pair is adjacent, high byte at the lower address (rule R32). -/
def Config.flagsAdjacent (c : Config) : Bool := decide (c.flagsLo.toNat = c.flagsHi.toNat + 1)

/-- The low flags byte is in the Read-Only region, out of the bus path's reach (rules R32, R146). -/
def Config.flagsReadOnly (c : Config) : Bool := decide (Machine.region c c.flagsLo = .readOnly)

/-- The PWM-enabled bit is a bit of the flags pair other than the gate (rule R34). -/
def Config.pwmApart (c : Config) : Bool :=
  decide (c.pwmFlag ≠ ⟨c.flagsLo, c.gateBit⟩) &&
    decide (c.pwmFlag.slot = c.flagsHi ∨ c.pwmFlag.slot = c.flagsLo)

/-- DEFAULTS does not cover the gate (rule R163 (b)). -/
def Config.defaultsSpareGate (c : Config) : Bool :=
  !Machine.testBit (Machine.cover c.defaults c.flagsLo) c.gateBit

/-- DEFAULTS enables PWM: the PWM-enabled bit is 1 after LDEF whatever it was. That rule R163 (c) means the net value is
DEDUCED (log 23). -/
def Config.enablesPwm (c : Config) : Bool :=
  Machine.testBit (Machine.cover c.defaults c.pwmFlag.slot) c.pwmFlag.bit &&
    Machine.testBit (Machine.dval c.defaults c.pwmFlag.slot) c.pwmFlag.bit

/-- An instance that enables PWM does it by a Bits entry for that bit alone (rule R163 (c)). -/
def Config.pwmOwnEntry (c : Config) : Bool :=
  !c.enablesPwm ||
    c.defaults.contains
      (.bits c.pwmFlag.slot (Machine.bitMask c.pwmFlag.bit) (Machine.bitMask c.pwmFlag.bit))

/-- There are at least two interrupt sources (rule R26). -/
def Config.enoughSources (c : Config) : Bool := decide (2 ≤ c.nirq)

/-- The constraints on a configuration (rules R52, R32, R34, R163 (b), (c), R223, R26). Rule R163 (a) holds by the types. -/
def Config.wf (c : Config) : Bool :=
  c.regionsCover && c.flagsAdjacent && c.flagsReadOnly && c.pwmApart && c.defaultsSpareGate && c.pwmOwnEntry &&
    c.enoughSources

end Sys2Proof
end

