-- ==== Sys2Proof/Decode.lean ====
section
/-! DEFINITION. Command words: fields (30_encoding.md rule R81), decoding (rules R85, R88), encoding (rule R86) and
the opcode map with its match and mask (rule R84). -/

namespace Sys2Proof

/-- op = cw[31:28] (rule R81). -/
def fieldOp (cw : Command) : BitVec 4 := cw.extractLsb' 28 4
/-- A = cw[27:22] (rule R81). -/
def fieldA (cw : Command) : Addr := cw.extractLsb' 22 6
/-- B = cw[21:16] (rule R81). -/
def fieldB (cw : Command) : Addr := cw.extractLsb' 16 6
/-- D = cw[15:0] (rule R81). -/
def fieldD (cw : Command) : Word := cw.extractLsb' 0 16
/-- D[15:8] (rule R82, format AV). -/
def fieldDHi (cw : Command) : Byte := cw.extractLsb' 8 8
/-- D[7:0] (rules R82, R83). -/
def fieldDLo (cw : Command) : Byte := cw.extractLsb' 0 8
/-- cw[27:0], the bits format N leaves unused (rule R82). -/
def fieldRest (cw : Command) : BitVec 28 := cw.extractLsb' 0 28

/-- Why a word is illegal (rule R88). -/
inductive Illegal where
  /-- op is 0x0, 0xD, 0xE or 0xF. -/
  | unassignedOpcode (op : BitVec 4)
  /-- A field its format does not use is not zero. -/
  | unusedFieldNotZero
  deriving DecidableEq, Repr

/-- The operation if the fields its format leaves unused are zero (rule R82). -/
def legalIf (unusedZero : Bool) (i : Instr) : Except Illegal Instr :=
  if unusedZero then .ok i else .error .unusedFieldNotZero

/-- Decoding (rule R85): total, every word an operation or illegal. -/
def decode (cw : Command) : Except Illegal Instr :=
  match fieldOp cw with
  | 0x1 => legalIf (fieldB cw == 0 && fieldD cw == 0) (.rdb (fieldA cw))
  | 0x2 => legalIf (fieldB cw == 0 && fieldDHi cw == 0) (.wrb (fieldA cw) (fieldDLo cw))
  | 0x3 => legalIf (fieldD cw == 0) (.rdw (fieldA cw) (fieldB cw))
  | 0x4 => .ok (.wrw (fieldA cw) (fieldB cw) (fieldD cw))
  | 0x5 => legalIf (fieldB cw == 0 && fieldDHi cw == 0) (.bwr (fieldA cw) (fieldDLo cw))
  | 0x6 => legalIf (fieldRest cw == 0) .weq
  | 0x7 => legalIf (fieldRest cw == 0) .wen
  | 0x8 => legalIf (fieldRest cw == 0) .wds
  | 0x9 => legalIf (fieldRest cw == 0) .init
  | 0xA => legalIf (fieldRest cw == 0) .ldef
  | 0xB => legalIf (fieldRest cw == 0) .ien
  | 0xC => legalIf (fieldRest cw == 0) .ids
  | op => .error (.unassignedOpcode op)

/-- A command word from its four fields (rule R81). -/
def assembleFields (op : BitVec 4) (a b : Addr) (d : Word) : Command := op ++ a ++ b ++ d

/-- Encoding (rule R86), from the format table of rule R82 and the opcode map of rule R84. -/
def encode (i : Instr) : Command :=
  match i with
  | .rdb a => assembleFields 0x1 a 0 0
  | .wrb a v => assembleFields 0x2 a 0 (0#8 ++ v)
  | .rdw ah al => assembleFields 0x3 ah al 0
  | .wrw ah al w => assembleFields 0x4 ah al w
  | .bwr a v => assembleFields 0x5 a 0 (0#8 ++ v)
  | .weq => assembleFields 0x6 0 0 0
  | .wen => assembleFields 0x7 0 0 0
  | .wds => assembleFields 0x8 0 0 0
  | .init => assembleFields 0x9 0 0 0
  | .ldef => assembleFields 0xA 0 0 0
  | .ien => assembleFields 0xB 0 0 0
  | .ids => assembleFields 0xC 0 0 0

/-- A row of the opcode map (rule R84): a word is the operation iff cw AND mask = pattern. -/
structure OpcodeRow where
  pattern : Command
  mask    : Command
  deriving DecidableEq, Repr

/-- The row of the opcode map of rule R84 that an operation stands in. -/
def opcodeRow (i : Instr) : OpcodeRow :=
  match i with
  | .rdb _ => ⟨0x10000000, 0xF03FFFFF⟩
  | .wrb _ _ => ⟨0x20000000, 0xF03FFF00⟩
  | .rdw _ _ => ⟨0x30000000, 0xF000FFFF⟩
  | .wrw _ _ _ => ⟨0x40000000, 0xF0000000⟩
  | .bwr _ _ => ⟨0x50000000, 0xF03FFF00⟩
  | .weq => ⟨0x60000000, 0xFFFFFFFF⟩
  | .wen => ⟨0x70000000, 0xFFFFFFFF⟩
  | .wds => ⟨0x80000000, 0xFFFFFFFF⟩
  | .init => ⟨0x90000000, 0xFFFFFFFF⟩
  | .ldef => ⟨0xA0000000, 0xFFFFFFFF⟩
  | .ien => ⟨0xB0000000, 0xFFFFFFFF⟩
  | .ids => ⟨0xC0000000, 0xFFFFFFFF⟩

/-- The opcode map of rule R84, in its order. -/
def opcodeRows : List OpcodeRow :=
  [.rdb 0, .wrb 0 0, .rdw 0 0, .wrw 0 0 0, .bwr 0 0, .weq, .wen, .wds, .init, .ldef, .ien, .ids].map opcodeRow

/-- The operation that the decoder reads from a word of the opcode table: one 32-bit value (rule R80; no byte
serialisation exists, log 17). A value wider than a command word is refused, not truncated (rule R51). -/
def decodeTableWord (nbits w : Nat) : Option Instr :=
  if w % 2 ^ nbits < 2 ^ 32 then (decode (BitVec.ofNat 32 (w % 2 ^ nbits))).toOption else none

end Sys2Proof
end

