-- ==== Sys2Proof/Machine/State.lean ====
section
/-! DEFINITION. The machine's state (10_state.md), as plain data, and its power-on value (rules R38, R220). -/

namespace Sys2Proof.Machine

/-- The micro-state of one context (rules R27 to R31) with the command stream it runs. -/
structure Context where
  /-- stream(c), constant during a run (rule R27; held here as data, log 1). -/
  stream : Stream
  /-- c.cpc, the command index (rule R27). -/
  cpc : Nat
  /-- c.phase, the next micro-step (rule R28). -/
  phase : Phase
  /-- c.sv, the interrupt-enable state saved by a word access (rule R29). -/
  sv : Bool
  /-- c.t, the temporary byte (rule R30). -/
  t : Byte
  /-- c.res, the result register (rule R31). -/
  res : Word
  deriving DecidableEq, Repr

/-- An active handler: its context and the interrupt source it serves (rules R26, R196). -/
structure Handler where
  source : Nat
  ctx    : Context
  deriving DecidableEq, Repr

/-- The three cases of the step relation (rule R194). -/
inductive Move where
  /-- One micro-step of the running context (rule R195). -/
  | context
  /-- Delivery of an interrupt of a source (rule R196). -/
  | deliver (source : Nat)
  /-- Return of the running handler (rule R198). -/
  | handlerReturn
  deriving DecidableEq, Repr

/-- The state of the machine. -/
structure State where
  /-- The configuration of the launch, constant during a run (rules R37, R199; log 1). -/
  cfg : Config
  /-- The slots of the bank (rule R20). -/
  bank : Bank
  /-- IE, the global interrupt enable (rule R24). -/
  ie : Bool
  /-- MAIN, the first element of the stack of active contexts (rule R26). -/
  main : Context
  /-- The rest of the stack of active contexts, the top (the running one) first (rule R26). -/
  handlers : List Handler
  /-- Per source, source 1 first: the handler streams not yet delivered, the next one first (rules R36, R199). -/
  deliveries : List (List Stream)
  /-- The environment's coming decisions, one for each step at which several moves are enabled (rules R194, R197).
  The model's own field (log 4). -/
  choices : List Move
  /-- How many free values have been drawn (rule R9). The model's own field (logs 3, 4). -/
  draws : Nat
  deriving DecidableEq, Repr

/-- Why the machine stops with a fault. -/
inductive Fault where
  /-- Raised by step where no move is enabled, the next word is not refused and the state is not final (rule R200): safe,
  the spec has no step. -/
  | stuck
  /-- Raised by a meaning where the phase is no row of the operation's phase table, and by a context step where there
  is no operation at the command index. No run reaches such a state (log 6): safe, the spec has no step. -/
  | noSuchMicroStep
  deriving DecidableEq, Repr

/-- Why the machine has no meaning for what comes next. -/
inductive Refusal where
  /-- Raised by exec for an instruction without a meaning; none is left: safe. -/
  | notModelled (mnemonic : String)
  /-- Raised by step where no move is enabled and the running context's next word is illegal (rule R88,
  refuse(illegal_command)): safe. -/
  | illegalCommand
  /-- Raised by exec of INIT while IE = 1, and so by step where no move is enabled and INIT is next (rule R160,
  refuse(init_with_interrupts_enabled)): safe. -/
  | initWithInterruptsEnabled
  /-- Raised by step in a final state (rule R199): safe, the spec has no step. -/
  | finished
  deriving DecidableEq, Repr

/-- What a step answers. -/
abbrev Outcome := Host.Outcome State Fault Refusal

/-- A context at its start: index 0, phase 0; sv, t and res hold no value in the spec (rules R38, R196), here the
n-th draw of each (log 3). -/
def Context.fresh (stream : Stream) (n : Nat) : Context where
  stream := stream
  cpc := 0
  phase := Phase.start
  sv := Config.freshSv n
  t := Config.freshT n
  res := Config.freshRes n

/-- What a launch fixes (rule R199). -/
structure Launch where
  cfg        : Config
  /-- stream(MAIN). -/
  main       : Stream
  /-- deliveries(k), source 1 first. -/
  deliveries : List (List Stream)
  /-- POR_BANK, the power-on bank: an open parameter (rules R7, R38, R199). -/
  bank       : Bank
  deriving DecidableEq, Repr

/-- The initial state of a launch (rules R38, R199): power-on with the streams loaded. -/
def Launch.initial (l : Launch) : State where
  cfg := l.cfg
  bank := l.bank
  ie := false
  main := Context.fresh l.main 0
  handlers := []
  deliveries := l.deliveries
  choices := []
  draws := 1

/-- Power-on (rules R38, R220) with nothing loaded: MAIN's stream is empty and no delivery is left (log 13). The
configuration is the reference one (logs 8, 10, 11, 12), the bank a free value for each slot (log 2). -/
def State.reset : State :=
  Launch.initial
    ⟨Config.reference, [], List.replicate Config.reference.nirq [], Vector.ofFn (fun a => Config.porByte a.val)⟩

end Sys2Proof.Machine
end

