-- ==== Sys2Proof/Machine/Flags.lean ====
section
/-! DEFINITION. Reading slots, the write-enable gate (10_state.md rule R33) and the permission of a bus-originated
write (42_access_policy.md rule R145). The hardware has no condition codes: every flag is a bit of the bank or IE. -/

namespace Sys2Proof.Machine

/-- bank[a] (rules R9, R21): always succeeds and changes nothing. -/
def State.slot (s : State) (a : Addr) : Byte := s.bank[a.toNat]'(a.isLt)

/-- The gate: bit GATE_BIT of the low flags byte, derived from the bank on every use (rule R33). True is Unlocked. -/
def State.gate (s : State) : Bool := testBit (s.slot s.cfg.flagsLo) s.cfg.gateBit

/-- bus_write_permitted (rule R145). -/
def busWritePermitted (s : State) (a : Addr) : Bool :=
  match region s.cfg a with
  | .readOnly => false
  | .readWrite => true
  | .safeReadWrite => s.gate

end Sys2Proof.Machine
end

