-- ==== Sys2Proof/Machine/Ops.lean ====
section
/-! DEFINITION. The named operations over the state: slots, the running context, the phase tables, the mask of the
word accessor, taking an interrupt and returning from one. -/

namespace Sys2Proof.Machine

/-! ### Slots -/

/-- bank[a] <- v (rules R9, R21): nothing else changes. -/
def State.writeSlot (s : State) (a : Addr) (v : Byte) : State :=
  { s with bank := s.bank.set a.toNat v a.isLt }

/-- The bank of NSLOTS slots of 0x00. -/
def zeroes (c : Config) : Bank := (Vector.replicate c.nslots 0x00).cast c.sizes.1

/-- Every slot becomes 0x00 (rule R160). -/
def State.zeroBank (s : State) : State :=
  { s with bank := zeroes s.cfg }

/-! ### The running context (rule R26) -/

/-- The top of the stack of active contexts, the only one that takes micro-steps. -/
def State.top (s : State) : Context :=
  match s.handlers with
  | [] => s.main
  | h :: _ => h.ctx

/-- The running context takes a new micro-state. -/
def State.setTop (s : State) (c : Context) : State :=
  match s.handlers with
  | [] => { s with main := c }
  | h :: hs => { s with handlers := { h with ctx := c } :: hs }

/-- c.t <- v. -/
def State.setT (s : State) (v : Byte) : State := s.setTop { s.top with t := v }

/-- c.res <- w. -/
def State.setRes (s : State) (w : Word) : State := s.setTop { s.top with res := w }

/-- c.phase <- p. -/
def State.setPhase (s : State) (p : Phase) : State := s.setTop { s.top with phase := p }

/-- The end of every operation: c.cpc <- c.cpc + 1 and c.phase <- 0 (rule R27). -/
def State.finishOp (s : State) : State :=
  s.setTop { s.top with cpc := s.top.cpc + 1, phase := Phase.start }

/-- IE <- b. -/
def State.setIe (s : State) (b : Bool) : State := { s with ie := b }

/-! ### Rows of the phase tables -/

/-- Phase 0 of a word access: c.sv <- IE and IE <- 0 in one micro-step (rule R122). -/
def maskInterrupts (s : State) : State := (s.setTop { s.top with sv := s.ie }).setIe false

/-- Phase 3 of a word access: IE <- c.sv (rules R122, R125). -/
def restoreInterrupts (s : State) : State := s.setIe s.top.sv

/-- c.t <- bank[a]. -/
def latchSlot (a : Addr) (s : State) : State := s.setT (s.slot a)

/-- The rows of WRW and of a Word entry of LDEF (rules R121, R161). -/
def wordWriteRows (ah al : Addr) (w : Word) : List (State → State) :=
  [maskInterrupts,
   fun s => s.writeSlot ah (hiByte w),
   fun s => s.writeSlot al (loByte w),
   restoreInterrupts]

/-- The rows of an entry of DEFAULTS (rule R161). -/
def entryRows (e : DefaultEntry) : List (State → State) :=
  match e with
  | .byte a v => [fun s => s.writeSlot a v]
  | .word ah al w => wordWriteRows ah al w
  | .bits a m v => [latchSlot a, fun s => s.writeSlot a (mergeMasked s.top.t m v)]

/-- One micro-step of an operation with the given phase table: the row of c.phase, after which the phase is the next
row's or, after the last row, the operation is over (rules R27, R28, R195). -/
def runRow (rows : List (State → State)) (s : State) : Outcome :=
  if s.top.phase.entry = 0 then
    match rows[s.top.phase.sub]? with
    | some row =>
      if s.top.phase.sub + 1 < rows.length then .next ((row s).setPhase ⟨0, s.top.phase.sub + 1⟩)
      else .next (row s).finishOp
    | none => .fault .noSuchMicroStep
  else .fault .noSuchMicroStep

/-- One micro-step of LDEF (rule R161): the row (i, j) of DEFAULTS, after which the phase is the next row's of the same
entry, or the next entry's first row, or the operation is over. The empty list is one micro-step that only ends it. -/
def runDefaults (s : State) : Outcome :=
  if s.cfg.defaults = [] ∧ s.top.phase = Phase.start then .next s.finishOp
  else
    match s.cfg.defaults[s.top.phase.entry]? with
    | none => .fault .noSuchMicroStep
    | some e =>
      match (entryRows e)[s.top.phase.sub]? with
      | none => .fault .noSuchMicroStep
      | some row =>
        if s.top.phase.sub + 1 < (entryRows e).length then
          .next ((row s).setPhase ⟨s.top.phase.entry, s.top.phase.sub + 1⟩)
        else if s.top.phase.entry + 1 < s.cfg.defaults.length then
          .next ((row s).setPhase ⟨s.top.phase.entry + 1, 0⟩)
        else .next (row s).finishOp

/-! ### Taking an interrupt and returning from one -/

/-- The streams a source has still to deliver (rule R199), sources numbered from 1. -/
def State.remaining (s : State) (k : Nat) : List Stream := s.deliveries.getD (k - 1) []

/-- Delivery of an interrupt of source k (rule R196): the source's next handler stream starts as a new context on top
of the stack, with no value in sv, t, res (log 3), and IE is cleared. Nothing else changes. Used where the move is
enabled, so the source has a stream left. -/
def takeInterrupt (k : Nat) (s : State) : State :=
  { s with
    ie := false
    handlers := ⟨k, Context.fresh ((s.remaining k).headD []) s.draws⟩ :: s.handlers
    deliveries := s.deliveries.set (k - 1) (s.remaining k).tail
    draws := s.draws + 1 }

/-- Return from a handler (rule R198): the top context is popped and IE is set. -/
def returnFromHandler (s : State) : State :=
  { s with ie := true, handlers := s.handlers.tail }

end Sys2Proof.Machine
end

