-- ==== Sys2Proof/Machine/AccessPolicy.lean ====
section
/-! DEFINITION. Access Policy: WEQ, WEN, WDS and BWR (42_access_policy.md). -/

namespace Sys2Proof.Machine

/-- WEQ (rule R140). -/
def execWeq (s : State) : Outcome :=
  runRow [fun s => s.setRes (widenBit s.gate)] s

/-- WEN (rule R141): an unmasked read-modify-write of the low flags byte, two micro-steps. -/
def execWen (s : State) : Outcome :=
  runRow
    [latchSlot s.cfg.flagsLo,
     fun r => r.writeSlot s.cfg.flagsLo (setBit r.top.t s.cfg.gateBit)] s

/-- WDS (rule R142): as WEN, clearing the gate bit. -/
def execWds (s : State) : Outcome :=
  runRow
    [latchSlot s.cfg.flagsLo,
     fun r => r.writeSlot s.cfg.flagsLo (clearBit r.top.t s.cfg.gateBit)] s

/-- BWR a, v (rules R143, R145): the region test, the gate test and the write are one micro-step (log 18); a denied
write is dropped in silence. -/
def execBwr (a : Addr) (v : Byte) (s : State) : Outcome :=
  runRow [fun s => if busWritePermitted s a then s.writeSlot a v else s] s

end Sys2Proof.Machine
end

