-- ==== Sys2Proof/Machine/AtomicWord.lean ====
section
/-! DEFINITION. Atomic Word Access: RDW and WRW (41_atomic_word.md), four micro-steps each under the mask. -/

namespace Sys2Proof.Machine

/-- RDW ah, al (rule R120), on whatever two addresses are given (rule R123). -/
def execRdw (ah al : Addr) (s : State) : Outcome :=
  runRow
    [maskInterrupts,
     latchSlot ah,
     fun s => s.setRes (combine s.top.t (s.slot al)),
     restoreInterrupts] s

/-- WRW ah, al, w (rule R121), on whatever two addresses are given (rule R123): raw, never denied. -/
def execWrw (ah al : Addr) (w : Word) (s : State) : Outcome :=
  runRow (wordWriteRows ah al w) s

end Sys2Proof.Machine
end

