-- ==== Sys2Proof/Machine/InterruptMask.lean ====
section
/-! DEFINITION. The environment operations on the interrupt-enable state: IEN and IDS (44_interrupt_mask.md). -/

namespace Sys2Proof.Machine

/-- IEN (rule R180): sets IE whatever it was. -/
def execIen (s : State) : Outcome := runRow [fun s => s.setIe true] s

/-- IDS (rule R181). -/
def execIds (s : State) : Outcome := runRow [fun s => s.setIe false] s

end Sys2Proof.Machine
end

