-- ==== Sys2Proof/Machine/Lifecycle.lean ====
section
/-! DEFINITION. Lifecycle: INIT and LDEF (43_lifecycle.md). -/

namespace Sys2Proof.Machine

/-- INIT (rule R160): refused while IE = 1, else every slot becomes 0x00 (log 15). -/
def execInit (s : State) : Outcome :=
  if s.ie then .refused .initWithInterruptsEnabled
  else runRow [State.zeroBank] s

/-- LDEF (rule R161): a raw write of DEFAULTS, entry by entry, not atomic as a whole. -/
def execLdef (s : State) : Outcome := runDefaults s

end Sys2Proof.Machine
end

