-- ==== Sys2Proof/Machine/Storage.lean ====
section
/-! DEFINITION. Storage: RDB and WRB (40_storage.md). -/

namespace Sys2Proof.Machine

/-- RDB a (rule R110). -/
def execRdb (a : Addr) (s : State) : Outcome :=
  runRow [fun s => s.setRes (widen (s.slot a))] s

/-- WRB a, v (rule R111): raw, never denied. -/
def execWrb (a : Addr) (v : Byte) (s : State) : Outcome :=
  runRow [fun s => s.writeSlot a v] s

end Sys2Proof.Machine
end

