-- ==== Sys2Proof/Machine/Dispatch.lean ====
section
/-! DEFINITION. One arm per instruction: exec performs the micro-step of the running context's phase. -/

namespace Sys2Proof.Machine

def exec (i : Instr) (s : State) : Host.Outcome State Fault Refusal :=
  match i with
  | .rdb a => Sys2Proof.Machine.execRdb a s
  | .wrb a v => Sys2Proof.Machine.execWrb a v s
  | .rdw ah al => Sys2Proof.Machine.execRdw ah al s
  | .wrw ah al w => Sys2Proof.Machine.execWrw ah al w s
  | .bwr a v => Sys2Proof.Machine.execBwr a v s
  | .weq => Sys2Proof.Machine.execWeq s
  | .wen => Sys2Proof.Machine.execWen s
  | .wds => Sys2Proof.Machine.execWds s
  | .init => Sys2Proof.Machine.execInit s
  | .ldef => Sys2Proof.Machine.execLdef s
  | .ien => Sys2Proof.Machine.execIen s
  | .ids => Sys2Proof.Machine.execIds s

end Sys2Proof.Machine
end

