-- ==== Sys2Proof/Machine/Contexts.lean ====
section
/-! DEFINITION. The step relation's moves (60_exceptions.md rules R194 to R199): which are enabled, what each does, and
which one a step takes. -/

namespace Sys2Proof.Machine

/-- The command word at the context's command index (rules R27, R195); none at the end of the stream. -/
def Context.word (c : Context) : Option Command := c.stream[c.cpc]?

/-- The operation the context executes or will execute next; none where there is no word or an illegal one. -/
def Context.op (c : Context) : Option Instr :=
  match c.word with
  | none => none
  | some cw => (decode cw).toOption

/-- The context is between operations and has no further one (rules R27, R198, R199). -/
def Context.finished (c : Context) : Bool :=
  decide (c.phase = Phase.start) && decide (c.cpc = c.stream.length)

/-- The context is inside an operation or has a next command word (rule R195). -/
def Context.hasOperation (c : Context) : Bool :=
  decide (c.phase ≠ Phase.start) || decide (c.cpc < c.stream.length)

/-- A context step (rule R195): the micro-step c.phase of the operation at c.cpc. -/
def contextStep (s : State) : Outcome :=
  match s.top.word with
  | none => .fault .noSuchMicroStep
  | some cw =>
    match decode cw with
    | .error _ => .refused .illegalCommand
    | .ok i => exec i s

/-- The running context's next word is refused (rules R88, R160, R195): it is illegal, or INIT while IE = 1. -/
def State.topRefused (s : State) : Bool :=
  decide (s.top.phase = Phase.start) &&
    match s.top.word with
    | none => false
    | some cw =>
      match decode cw with
      | .error _ => true
      | .ok i => decide (i = .init) && s.ie

/-- The context step is enabled (rule R195). -/
def State.contextEnabled (s : State) : Bool := s.top.hasOperation && !s.topRefused

/-- A handler of source k is on the stack (rule R196 (c)). -/
def State.onStack (s : State) (k : Nat) : Bool := (s.handlers.map Handler.source).contains k

/-- Delivery of source k is enabled (rule R196 (a), (b), (c)). -/
def State.deliverable (s : State) (k : Nat) : Bool :=
  s.ie && !(s.remaining k).isEmpty && (s.cfg.sameSourceReentry || !s.onStack k)

/-- The interrupt sources, 1 to NIRQ (rule R26). -/
def Config.sources (c : Config) : List Nat := List.range' 1 c.nirq

/-- Return is enabled (rule R198). -/
def State.returnable (s : State) : Bool := !s.handlers.isEmpty && s.top.finished

/-- The moves that may happen (rules R194 to R198): the running context's micro-step or return, and every delivery that
is enabled. -/
def State.moves (s : State) : List Move :=
  (if s.contextEnabled then [.context] else []) ++
    (if s.returnable then [.handlerReturn] else []) ++
      ((Config.sources s.cfg).filter s.deliverable).map .deliver

/-- A move is performed. -/
def applyMove (m : Move) (s : State) : Outcome :=
  match m with
  | .context => contextStep s
  | .deliver k => .next (takeInterrupt k s)
  | .handlerReturn => .next (returnFromHandler s)

/-- Which move a step takes, and the state with that decision used up (rules R194, R197: any enabled move may happen;
log 4). With one move enabled there is nothing to decide. With several, the next entry of choices decides; where the
list is empty or names a move that is not enabled, a free value does. -/
def chooseMove (s : State) : Option (Move × State) :=
  match s.moves with
  | [] => none
  | [m] => some (m, s)
  | m :: ms =>
    match s.choices with
    | [] => some ((m :: ms).getD (Config.freePick s.draws % (m :: ms).length) m, { s with draws := s.draws + 1 })
    | c :: cs =>
      if (m :: ms).contains c then some (c, { s with choices := cs })
      else some ((m :: ms).getD (Config.freePick s.draws % (m :: ms).length) m,
        { s with choices := cs, draws := s.draws + 1 })

/-- A final state (rule R199). -/
def State.final (s : State) : Bool :=
  s.handlers.isEmpty && s.main.finished && s.deliveries.all List.isEmpty

/-- What a step answers where no move is enabled (rules R195, R199, R200): the refusal of the running context's next word
(log 7), or the run is over, or it is stuck. -/
def noMove (s : State) : Outcome :=
  if s.topRefused then contextStep s
  else if s.final then .refused .finished
  else .fault .stuck

/-- A stream with a word at an index; illegal zero words fill a gap before it, which nothing runs. -/
def placeWord (st : Stream) (k : Nat) (cw : Command) : Stream :=
  if k < st.length then st.set k cw else st ++ List.replicate (k - st.length) 0 ++ [cw]

/-- The state whose next step runs the given command word: the word stands at the running context's command index, the
context is between operations, and if a delivery could happen instead the environment's next decision is the context's
(log 21). -/
def placeNext (cw : Command) (s : State) : State :=
  let placed := s.setTop { s.top with stream := placeWord s.top.stream s.top.cpc cw, phase := Phase.start }
  if ((Config.sources s.cfg).filter s.deliverable).isEmpty then placed
  else { placed with choices := .context :: s.choices }

end Sys2Proof.Machine
end

