-- ==== Sys2Proof/Machine/Step.lean ====
section
/-! DEFINITION. The step function: one move of the step relation (60_exceptions.md rule R194). -/

namespace Sys2Proof.Machine

/-- One step: the chosen move is performed; where no move is enabled the machine stops. -/
def step (s : State) : Host.Outcome State Fault Refusal :=
  match chooseMove s with
  | none => noMove s
  | some (m, s') => applyMove m s'

/-- The state whose next step fetches and runs the given command word (log 21). -/
def State.withFetchWord (s : State) (nbits w : Nat) : State :=
  placeNext (BitVec.ofNat 32 (w % 2 ^ nbits)) s

end Sys2Proof.Machine
end

