-- ==== Sys2Proof/Machine/Assembler.lean ====
section
/-! DEFINITION. Source text (30_encoding.md rules R89, R90): checked operations, pseudo-instructions, one line of text,
and streams headed by their context. Nothing of the machine depends on this file. -/

namespace Sys2Proof.Machine

/-- The operation a source operation stands for (rules R89, R90); none where an operand is outside its range, an
assembly error. A pseudo-instruction stands for exactly one operation; the assembler computes a + 1. -/
def assemble (c : Config) (o : SourceOp) : Option Instr :=
  if o.wf c then
    match o with
    | .rdb a => some (.rdb (c.addr a))
    | .wrb a v => some (.wrb (c.addr a) (c.byte v))
    | .rdw ah al => some (.rdw (c.addr ah) (c.addr al))
    | .wrw ah al w => some (.wrw (c.addr ah) (c.addr al) (c.word w))
    | .bwr a v => some (.bwr (c.addr a) (c.byte v))
    | .weq => some .weq
    | .wen => some .wen
    | .wds => some .wds
    | .init => some .init
    | .ldef => some .ldef
    | .ien => some .ien
    | .ids => some .ids
    | .rdf a => some (.rdw (c.addr a) (c.addr (a + 1)))
    | .wrf a w => some (.wrw (c.addr a) (c.addr (a + 1)) (c.word w))
    | .rdflags => some (.rdw c.flagsHi c.flagsLo)
  else none

/-! ### Text (rule R89; conventions the rule leaves open: log 20) -/

/-- A token of a source line. -/
inductive Token where
  /-- A mnemonic, label, function name, directive or context name. -/
  | name (cs : List Char)
  | num (n : Nat)
  | comma
  | colon
  | lparen
  | rparen
  deriving DecidableEq, Repr

/-- The value of a digit in a base of at most 16. -/
def digitValue (base : Nat) (ch : Char) : Option Nat :=
  let v :=
    if '0' ≤ ch ∧ ch ≤ '9' then ch.toNat - '0'.toNat
    else if 'a' ≤ ch ∧ ch ≤ 'f' then ch.toNat - 'a'.toNat + 10
    else if 'A' ≤ ch ∧ ch ≤ 'F' then ch.toNat - 'A'.toNat + 10
    else base
  if v < base then some v else none

/-- The value of a list of digits, after a prefix already read. -/
def digitsValue (base acc : Nat) : List Char → Option Nat
  | [] => some acc
  | ch :: rest =>
    match digitValue base ch with
    | none => none
    | some v => digitsValue base (acc * base + v) rest

/-- A number in C notation, hexadecimal with 0x or decimal; a decimal number has no leading zero. -/
def numberValue : List Char → Option Nat
  | '0' :: 'x' :: d :: ds => digitsValue 16 0 (d :: ds)
  | ['0'] => some 0
  | '0' :: _ => none
  | d :: ds => digitsValue 10 0 (d :: ds)
  | [] => none

/-- The token of a maximal run of word characters: a number where it begins with a digit, else a name. -/
def wordToken : List Char → Option Token
  | [] => none
  | ch :: rest =>
    if ch.isDigit then (numberValue (ch :: rest)).map .num else some (.name (ch :: rest))

/-- The tokens of a word just ended (none if it is empty) before those that follow. -/
def endWord (word : List Char) (rest : Option (List Token)) : Option (List Token) :=
  match word, rest with
  | [], r => r
  | _ :: _, none => none
  | ch :: cs, some ts => (wordToken (ch :: cs).reverse).map (· :: ts)

/-- The tokens of a line; word holds the characters of the word being read, last first. -/
def lex (word : List Char) : List Char → Option (List Token)
  | [] => endWord word (some [])
  | ';' :: _ => endWord word (some [])
  | ' ' :: rest => endWord word (lex [] rest)
  | '\t' :: rest => endWord word (lex [] rest)
  | ',' :: rest => endWord word ((lex [] rest).map (.comma :: ·))
  | ':' :: rest => endWord word ((lex [] rest).map (.colon :: ·))
  | '(' :: rest => endWord word ((lex [] rest).map (.lparen :: ·))
  | ')' :: rest => endWord word ((lex [] rest).map (.rparen :: ·))
  | ch :: rest => if ch.isAlphanum || ch == '_' || ch == '.' then lex (ch :: word) rest else none

/-- A line without its label. -/
def dropLabel : List Token → List Token
  | .name _ :: .colon :: rest => rest
  | ts => ts

/-- The numbers of an operand list, separated by commas. -/
def operandNumbers : List Token → Option (List Nat)
  | [] => some []
  | [.num n] => some [n]
  | .num n :: .comma :: .num k :: rest => (operandNumbers (.num k :: rest)).map (n :: ·)
  | _ => none

/-- The operands without the parentheses of the function-call spelling. -/
def callOperands (ts : List Token) : Option (List Token) :=
  match ts with
  | .lparen :: rest => if rest.getLast? = some .rparen then some rest.dropLast else none
  | _ => none

/-- The source operation of a mnemonic or pseudo-instruction with its operands (rules R11, R89, R90). -/
def mnemonicOp (name : List Char) (xs : List Nat) : Option SourceOp :=
  match name, xs with
  | ['R', 'D', 'B'], [a] => some (.rdb a)
  | ['W', 'R', 'B'], [a, v] => some (.wrb a v)
  | ['R', 'D', 'W'], [ah, al] => some (.rdw ah al)
  | ['W', 'R', 'W'], [ah, al, w] => some (.wrw ah al w)
  | ['B', 'W', 'R'], [a, v] => some (.bwr a v)
  | ['W', 'E', 'Q'], [] => some .weq
  | ['W', 'E', 'N'], [] => some .wen
  | ['W', 'D', 'S'], [] => some .wds
  | ['I', 'N', 'I', 'T'], [] => some .init
  | ['L', 'D', 'E', 'F'], [] => some .ldef
  | ['I', 'E', 'N'], [] => some .ien
  | ['I', 'D', 'S'], [] => some .ids
  | ['R', 'D', 'F'], [a] => some (.rdf a)
  | ['W', 'R', 'F'], [a, w] => some (.wrf a w)
  | ['R', 'D', 'F', 'L', 'A', 'G', 'S'], [] => some .rdflags
  | _, _ => none

/-- The mnemonic of a function name of the source (table of rule R11; bus_write by rule R2). -/
def functionMnemonic (name : List Char) : List Char :=
  if name = "read_byte".toList then ['R', 'D', 'B']
  else if name = "write_byte".toList then ['W', 'R', 'B']
  else if name = "read_word".toList then ['R', 'D', 'W']
  else if name = "write_word".toList then ['W', 'R', 'W']
  else if name = "bus_write".toList then ['B', 'W', 'R']
  else if name = "is_write_enabled".toList then ['W', 'E', 'Q']
  else if name = "enable_writes".toList then ['W', 'E', 'N']
  else if name = "disable_writes".toList then ['W', 'D', 'S']
  else if name = "init".toList then ['I', 'N', 'I', 'T']
  else if name = "load_defaults".toList then ['L', 'D', 'E', 'F']
  else []

/-- The source operation of a name and the tokens after it, in either spelling. -/
def namedOp (name : List Char) (operands : List Token) : Option SourceOp :=
  match callOperands operands with
  | some inside => (operandNumbers inside).bind (mnemonicOp (functionMnemonic name))
  | none => (operandNumbers operands).bind (mnemonicOp name)

/-- What a line of source text holds. -/
inductive Line where
  /-- A blank, comment or label line. -/
  | empty
  /-- .context MAIN, or the handler stream of source k: .context BUS, CTL or IRQ k. -/
  | context (source : Option Nat)
  | op (i : Instr)
  deriving DecidableEq, Repr

/-- The context a directive names: none is MAIN, a number is the source of a handler stream. Rule R89 gives the k of
IRQ<k> no range; that every decimal k is accepted, 0 and numbers above NIRQ (no source of rule R26) too, is a DESIGN
CHOICE (log 20). -/
def contextName : List Char → Option (Option Nat)
  | ['M', 'A', 'I', 'N'] => some none
  | ['B', 'U', 'S'] => some (some Config.busSource)
  | ['C', 'T', 'L'] => some (some Config.ctlSource)
  | 'I' :: 'R' :: 'Q' :: d :: ds => (digitsValue 10 0 (d :: ds)).map some
  | _ => none

/-- One line of source text (rule R89); none is an assembly error. The grammar of the rule gives a label to a line of an
operation and has no line for a directive: that a context directive may carry a label, which is dropped as on any other
line, and a comment is a DESIGN CHOICE (log 20). -/
def parseLine (c : Config) (text : List Char) : Option Line :=
  match lex [] text with
  | none => none
  | some ts =>
    match dropLabel ts with
    | [] => some .empty
    | [.name ['.', 'c', 'o', 'n', 't', 'e', 'x', 't'], .name n] => (contextName n).map .context
    | .name n :: operands => ((namedOp n operands).bind (assemble c)).map .op
    | _ => none

/-- The streams of a program with their contexts, in order; a line before the first directive is an error. -/
def streamsOf : List Line → Option (List (Option Nat × Stream)) → Option (List (Option Nat × Stream))
  | [], done => done
  | .empty :: rest, done => streamsOf rest done
  | .context k :: rest, done => streamsOf rest (done.map (· ++ [(k, [])]))
  | .op i :: rest, done =>
    streamsOf rest (done.bind fun ss =>
      match ss.getLast? with
      | none => none
      | some (k, st) => some (ss.dropLast ++ [(k, st ++ [encode i])]))

/-- A program: its lines assembled into streams headed by their contexts. -/
def assembleProgram (c : Config) (lines : List (List Char)) : Option (List (Option Nat × Stream)) :=
  match lines.mapM (parseLine c) with
  | none => none
  | some ls => streamsOf ls (some [])

end Sys2Proof.Machine
end

