-- ==== Sys2Proof/Safety.lean ====
section
/-! DEFINITION. The terms claims use: the stack of contexts, the step relation of 60_exceptions.md rule R194 and the
states it reaches, the invariant of 10_state.md rule R39, whole operations, and the premises of the claims on tearing,
on the gate and on boot order. -/

namespace Sys2Proof.Machine

/-! ### Contexts -/

/-- The stack of active contexts, MAIN first and the running context last (rule R26). -/
def State.stack (s : State) : List Context := s.main :: (s.handlers.map Handler.ctx).reverse

/-- The suspended contexts: the stack without its top. -/
def State.below (s : State) : List Context := s.stack.dropLast

/-- Everything that no operation of the running context writes is the same: the configuration, the other contexts and
the sources of the handlers, the running context's stream, the deliveries left, the environment's decisions. -/
structure SameOutside (s t : State) : Prop where
  cfg : t.cfg = s.cfg
  below : t.below = s.below
  sources : t.handlers.map Handler.source = s.handlers.map Handler.source
  stream : t.top.stream = s.top.stream
  deliveries : t.deliveries = s.deliveries
  choices : t.choices = s.choices
  draws : t.draws = s.draws

/-! ### Operations and their phases -/

/-- The number of micro-steps of an operation (rule R236). -/
def opSteps (c : Config) (i : Instr) : Nat :=
  match i with
  | .rdb _ => 1
  | .wrb _ _ => 1
  | .rdw _ _ => 4
  | .wrw _ _ _ => 4
  | .bwr _ _ => 1
  | .weq => 1
  | .wen => 2
  | .wds => 2
  | .init => 1
  | .ldef => ldefSteps c.defaults
  | .ien => 1
  | .ids => 1

/-- A phase of LDEF: a micro-step of an entry of DEFAULTS, or (0, 0) where the list is empty (rule R161). -/
def ldefPhase (ds : List DefaultEntry) (p : Phase) : Bool :=
  match ds[p.entry]? with
  | some e => decide (p.sub < entrySteps e)
  | none => decide (ds = [] ∧ p = Phase.start)

/-- The phase is a row of the operation's phase table (rules R28, R161). -/
def legalPhase (c : Config) (i : Instr) (p : Phase) : Bool :=
  if i = .ldef then ldefPhase c.defaults p else decide (p.entry = 0 ∧ p.sub < opSteps c i)

/-- The phase is 1, 2 or 3 of a word access (rule R39 (b)): of RDW, of WRW or of a Word entry of LDEF. -/
def insideWordAccess (c : Config) (i : Instr) (p : Phase) : Bool :=
  decide (1 ≤ p.sub ∧ p.sub ≤ 3) &&
    match i with
    | .rdw _ _ => decide (p.entry = 0)
    | .wrw _ _ _ => decide (p.entry = 0)
    | .ldef =>
      match c.defaults[p.entry]? with
      | some (.word _ _ _) => true
      | _ => false
    | .rdb _ => false
    | .wrb _ _ => false
    | .bwr _ _ => false
    | .weq => false
    | .wen => false
    | .wds => false
    | .init => false
    | .ien => false
    | .ids => false

/-- The context has a word access in phase 1, 2 or 3 (rule R39). -/
def Context.inWordAccess (cfg : Config) (c : Context) : Bool :=
  match c.op with
  | some i => insideWordAccess cfg i c.phase
  | none => false

/-- The context's index is in its stream or at its end (rule R27) and its phase is 0 or a row of its operation's phase
table (rule R28). -/
def Context.valid (cfg : Config) (c : Context) : Bool :=
  decide (c.cpc ≤ c.stream.length) &&
    (decide (c.phase = Phase.start) ||
      match c.op with
      | some i => legalPhase cfg i c.phase
      | none => false)

/-- A number of micro-steps of one operation with no other context between them. -/
def unpreempted (n : Nat) (i : Instr) (s : State) : Outcome :=
  match n with
  | 0 => .next s
  | k + 1 =>
    match exec i s with
    | .next t => unpreempted k i t
    | .fault r => .fault r
    | .refused r => .refused r

/-! ### The step relation -/

/-- The step relation (rule R194): an enabled move is performed. -/
def Moves (s t : State) : Prop := ∃ m ∈ s.moves, applyMove m s = .next t

/-- A state that some run of the step relation reaches from s. -/
inductive Reaches (s : State) : State → Prop where
  | start : Reaches s s
  | move {t u : State} : Reaches s t → Moves t u → Reaches s u

/-- A number of steps. -/
def steps (n : Nat) (s : State) : Outcome :=
  match n with
  | 0 => .next s
  | k + 1 =>
    match step s with
    | .next t => steps k t
    | .fault r => .fault r
    | .refused r => .refused r

/-- The invariant of rule R39, with the facts it needs on configuration, sources and phases. Rule R39 (a), that the
stack is not empty and MAIN is first, holds of every State by its type. -/
structure State.Inv (s : State) : Prop where
  /-- The configuration satisfies its constraints (rule R223). -/
  config : s.cfg.wf = true
  /-- There is one delivery list for each source (rule R199). -/
  lists : s.deliveries.length = s.cfg.nirq
  /-- Every handler on the stack is of a source (rule R26). -/
  sources : ∀ h ∈ s.handlers, 1 ≤ h.source ∧ h.source ≤ s.cfg.nirq
  /-- Without re-entry no source is on the stack twice (rule R196 (c)). -/
  once : s.cfg.sameSourceReentry = false → (s.handlers.map Handler.source).Nodup
  /-- Every context's index and phase are in range (rules R27, R28). -/
  valid : ∀ c ∈ s.stack, c.valid s.cfg = true
  /-- Rule R39 (b): a word access of the top in phase 1, 2 or 3 holds the mask. -/
  masked : s.top.inWordAccess s.cfg = true → s.ie = false
  /-- Rule R39 (b), (c): no suspended context is in phase 1, 2 or 3 of a word access. -/
  suspended : ∀ c ∈ s.below, c.inWordAccess s.cfg = false

/-! ### Slots and streams -/

/-- The slots an operation may write (rule R22; BWR writes none where it is denied). -/
def writtenSlots (c : Config) (i : Instr) : List Addr :=
  match i with
  | .rdb _ => []
  | .wrb a _ => [a]
  | .rdw _ _ => []
  | .wrw ah al _ => [ah, al]
  | .bwr a _ => if region c a = .readOnly then [] else [a]
  | .weq => []
  | .wen => [c.flagsLo]
  | .wds => [c.flagsLo]
  | .init => (List.range c.nslots).map c.addr
  | .ldef =>
    c.defaults.flatMap fun e =>
      match e with
      | .byte a _ => [a]
      | .word ah al _ => [ah, al]
      | .bits a _ _ => [a]
  | .ien => []
  | .ids => []

/-- The slots an operation reads (rule R22). -/
def readSlots (c : Config) (i : Instr) : List Addr :=
  match i with
  | .rdb a => [a]
  | .wrb _ _ => []
  | .rdw ah al => [ah, al]
  | .wrw _ _ _ => []
  | .bwr a _ => if region c a = .safeReadWrite then [c.flagsLo] else []
  | .weq => [c.flagsLo]
  | .wen => [c.flagsLo]
  | .wds => [c.flagsLo]
  | .init => []
  | .ldef =>
    c.defaults.flatMap fun e =>
      match e with
      | .byte _ _ => []
      | .word _ _ _ => []
      | .bits a _ _ => [a]
  | .ien => []
  | .ids => []

/-- A property of every operation of every stream of the run: of the contexts on the stack and of the deliveries left. -/
def State.everyOp (s : State) (P : Instr → Prop) : Prop :=
  ∀ st ∈ s.stack.map Context.stream ++ s.deliveries.flatten, ∀ cw ∈ st, ∀ i, decode cw = .ok i → P i

/-- The 16-bit value of a pair of slots (rule R54). -/
def State.pair (s : State) (ah al : Addr) : Word := combine (s.slot ah) (s.slot al)

/-- A pair of addresses is written whole with an admitted value, or not touched. -/
def pairWriteOk (ah al : Addr) (W : Word → Prop) (h l : Addr) (w : Word) : Prop :=
  (h = ah ∧ l = al ∧ W w) ∨ (h ≠ ah ∧ h ≠ al ∧ l ≠ ah ∧ l ≠ al)

/-- Rule R124, premise of consequence (a): the operation writes the pair only as a whole word, with an admitted value
(INIT writes the pair 0x0000 in one micro-step). -/
def keepsPairWhole (c : Config) (ah al : Addr) (W : Word → Prop) (i : Instr) : Prop :=
  match i with
  | .rdb _ => True
  | .wrb a _ => a ≠ ah ∧ a ≠ al
  | .rdw _ _ => True
  | .wrw h l w => pairWriteOk ah al W h l w
  | .bwr a _ => a ≠ ah ∧ a ≠ al
  | .weq => True
  | .wen => c.flagsLo ≠ ah ∧ c.flagsLo ≠ al
  | .wds => c.flagsLo ≠ ah ∧ c.flagsLo ≠ al
  | .init => W 0
  | .ldef =>
    ∀ e ∈ c.defaults,
      match e with
      | .byte a _ => a ≠ ah ∧ a ≠ al
      | .word h l w => pairWriteOk ah al W h l w
      | .bits a _ _ => a ≠ ah ∧ a ≠ al
  | .ien => True
  | .ids => True

/-- Rule R146, premise (i), for a locked gate: the operation is not WEN, and no raw write of the low flags byte sets
the gate bit. -/
def cannotUnlock (c : Config) (i : Instr) : Prop :=
  match i with
  | .rdb _ => True
  | .wrb a v => a = c.flagsLo → testBit v c.gateBit = false
  | .rdw _ _ => True
  | .wrw ah al w =>
    (ah = c.flagsLo → testBit (hiByte w) c.gateBit = false) ∧ (al = c.flagsLo → testBit (loByte w) c.gateBit = false)
  | .bwr _ _ => True
  | .weq => True
  | .wen => False
  | .wds => True
  | .init => True
  | .ldef => True
  | .ien => True
  | .ids => True

/-! ### Boot order (rule R222) -/

/-- An operation MAIN may execute before INIT: it neither reads the bank nor enables interrupts. -/
def allowedBeforeInit (c : Config) (i : Instr) : Bool := decide (readSlots c i = []) && decide (i ≠ .ien)

/-- The stream executes INIT, and before it only operations that are allowed there (rule R222). -/
def bootConforms (c : Config) : Stream → Bool
  | [] => false
  | cw :: rest =>
    match decode cw with
    | .error _ => false
    | .ok i => decide (i = .init) || (allowedBeforeInit c i && bootConforms c rest)

/-- The index of the first INIT of a stream (its length where there is none). -/
def initIndex : Stream → Nat
  | [] => 0
  | cw :: rest => if decode cw = .ok .init then 0 else initIndex rest + 1

end Sys2Proof.Machine
end

