-- ==== Sys2Proof/Certificates/Slice0/Obligations.lean ====
section
/-! DEFINITION. The statements for the provers. They formalise the numbered rules of spec/ and hold in every state,
for every configuration, every launch and every choice of the environment, unless a premise says otherwise. Numbers are
written out here (a * 256 + b, single bits) and not with the model's own helpers, so that a wrong helper is seen. -/

open Sys2Proof Sys2Proof.Machine

/-! ### Encoding (30_encoding.md) -/

/-- Rule R87 and vectors V-EN of 95_test_vectors.md section 2: words written out from the spec. -/
def Obligations.SampleWordsDecode : Prop :=
  decode 0x1FC00000 = .ok (.rdb 0x3F) ∧ decode 0x22000012 = .ok (.wrb 0x08 0x12) ∧
  decode 0x3FBF0000 = .ok (.rdw 0x3E 0x3F) ∧ decode 0x42481234 = .ok (.wrw 0x09 0x08 0x1234) ∧
  decode 0x58000055 = .ok (.bwr 0x20 0x55) ∧ decode 0x60000000 = .ok .weq ∧ decode 0x70000000 = .ok .wen ∧
  decode 0x80000000 = .ok .wds ∧ decode 0x90000000 = .ok .init ∧ decode 0xA0000000 = .ok .ldef ∧
  decode 0xB0000000 = .ok .ien ∧ decode 0xC0000000 = .ok .ids

/-- Rule R86, first law: decoding the encoding of any operation gives it back. -/
def Obligations.DecodeOfEncode : Prop := ∀ i : Instr, decode (encode i) = .ok i

/-- Rule R86, second law: encoding what a legal word decodes to gives the word back. -/
def Obligations.EncodeOfDecode : Prop := ∀ (cw : Command) (i : Instr), decode cw = .ok i → encode i = cw

/-- Rule R84: the opcode map, row by row: a word is the operation iff cw AND mask = match. -/
def Obligations.WordsMatchTheOpcodeMap : Prop :=
  ∀ cw : Command,
    ((∃ a, decode cw = .ok (.rdb a)) ↔ cw &&& 0xF03FFFFF = 0x10000000) ∧
    ((∃ a v, decode cw = .ok (.wrb a v)) ↔ cw &&& 0xF03FFF00 = 0x20000000) ∧
    ((∃ ah al, decode cw = .ok (.rdw ah al)) ↔ cw &&& 0xF000FFFF = 0x30000000) ∧
    ((∃ ah al w, decode cw = .ok (.wrw ah al w)) ↔ cw &&& 0xF0000000 = 0x40000000) ∧
    ((∃ a v, decode cw = .ok (.bwr a v)) ↔ cw &&& 0xF03FFF00 = 0x50000000) ∧
    (decode cw = .ok .weq ↔ cw &&& 0xFFFFFFFF = 0x60000000) ∧ (decode cw = .ok .wen ↔ cw &&& 0xFFFFFFFF = 0x70000000) ∧
    (decode cw = .ok .wds ↔ cw &&& 0xFFFFFFFF = 0x80000000) ∧ (decode cw = .ok .init ↔ cw &&& 0xFFFFFFFF = 0x90000000) ∧
    (decode cw = .ok .ldef ↔ cw &&& 0xFFFFFFFF = 0xA0000000) ∧ (decode cw = .ok .ien ↔ cw &&& 0xFFFFFFFF = 0xB0000000) ∧
    (decode cw = .ok .ids ↔ cw &&& 0xFFFFFFFF = 0xC0000000)

/-- Rule R90: the pseudo-instructions, each one operation; and rule R89: an operand outside its range is an error. -/
def Obligations.AssemblerChecksAndExpands : Prop :=
  ∀ c : Config,
    (∀ a : Nat, a ≤ 0x3E → assemble c (.rdf a) = some (.rdw (BitVec.ofNat 6 a) (BitVec.ofNat 6 (a + 1)))) ∧
    (∀ a w : Nat, a ≤ 0x3E → w ≤ 0xFFFF →
      assemble c (.wrf a w) = some (.wrw (BitVec.ofNat 6 a) (BitVec.ofNat 6 (a + 1)) (BitVec.ofNat 16 w))) ∧
    assemble c .rdflags = some (.rdw c.flagsHi c.flagsLo) ∧
    (∀ a : Nat, 0x3E < a → assemble c (.rdf a) = none ∧ ∀ w, assemble c (.wrf a w) = none) ∧
    (∀ a v : Nat, (0x3F < a ∨ 0xFF < v) → assemble c (.wrb a v) = none ∧ assemble c (.bwr a v) = none) ∧
    (∀ a : Nat, 0x3F < a → assemble c (.rdb a) = none) ∧
    (∀ w : Nat, 0xFFFF < w → (∀ ah al, assemble c (.wrw ah al w) = none) ∧ ∀ a, assemble c (.wrf a w) = none) ∧
    (∀ ah al : Nat, (0x3F < ah ∨ 0x3F < al) → assemble c (.rdw ah al) = none ∧ ∀ w, assemble c (.wrw ah al w) = none)

/-! ### A step runs the decoded operation (rules R27, R194, R195, R197) -/

/-- Rule R195: where the context's move is chosen and its word decodes to i, the step is exec of i, on the state whose
only change is the model's own record of the environment's decisions; and where no delivery is enabled the context's
move is the one chosen and nothing at all is added. -/
def Obligations.StepRunsDecodedOperation : Prop :=
  ∀ (s : State) (cw : Command) (i : Instr), s.top.word = some cw → decode cw = .ok i →
    (∀ s0, chooseMove s = some (.context, s0) →
      step s = exec i s0 ∧ s0 = { s with choices := s0.choices, draws := s0.draws }) ∧
    ((∀ k, 1 ≤ k → k ≤ s.cfg.nirq → s.deliverable k = false) → step s = exec i s)

/-- Rules R88, R160, R195: between operations, a context whose next word is illegal, or INIT while IE = 1, has no step;
and where no delivery of a source is enabled the machine answers the refusal. That an enabled delivery is not held up by
such a word is the model's choice, its reading of R88 against R195 and R196 (log 7). -/
def Obligations.RefusedWordsHaveNoStep : Prop :=
  ∀ (s : State) (cw : Command), s.top.word = some cw → s.top.phase = Phase.start →
    ((∃ e, decode cw = .error e) ∨ (decode cw = .ok .init ∧ s.ie = true) → Move.context ∉ s.moves ∧
      ((∃ k, 1 ≤ k ∧ k ≤ s.cfg.nirq ∧ s.deliverable k = true) →
        ∃ k s0, chooseMove s = some (.deliver k, s0) ∧ step s = .next (takeInterrupt k s0))) ∧
    ((∀ k, 1 ≤ k → k ≤ s.cfg.nirq → s.deliverable k = false) →
      ((∃ e, decode cw = .error e) → step s = .refused .illegalCommand) ∧
      (decode cw = .ok .init → s.ie = true → step s = .refused .initWithInterruptsEnabled))

/-- Rule R194: a step is one of the three moves, an enabled one (rules R195, R196, R198), on the state up to the model's own
fields. -/
def Obligations.StepIsAnEnabledMove : Prop :=
  ∀ s t : State, step s = .next t →
    ∃ m ∈ s.moves, ∃ cs n, applyMove m { s with choices := cs, draws := n } = .next t ∧
      ((m = .context ∧ ∃ i, s.top.op = some i ∧ (i = .init → s.ie = false)) ∨
       (m = .handlerReturn ∧ s.handlers ≠ [] ∧ s.top.phase = Phase.start ∧ s.top.cpc = s.top.stream.length) ∨
       (∃ k, m = .deliver k ∧ 1 ≤ k ∧ k ≤ s.cfg.nirq ∧ s.ie = true ∧ s.deliveries.getD (k - 1) [] ≠ [] ∧
         (s.cfg.sameSourceReentry = true ∨ ∀ h ∈ s.handlers, h.source ≠ k)))

/-- Rules R194, R197: any enabled move may happen: for every enabled move some decision of the environment makes the step
take it. -/
def Obligations.EveryEnabledMoveCanBeTaken : Prop :=
  ∀ (s t : State) (m : Move), m ∈ s.moves → applyMove m s = .next t →
    ∃ cs u, step { s with choices := cs } = .next u ∧ { u with choices := t.choices } = t

/-! ### Storage (40_storage.md) -/

/-- Rule R110: RDB. -/
def Obligations.RdbReadsOneSlot : Prop :=
  (∀ a : Addr, (encode (.rdb a)).toNat = 0x10000000 + a.toNat * 2 ^ 22) ∧
  ∀ (a : Addr) (s : State), s.top.phase = Phase.start →
    ∃ t, exec (.rdb a) s = .next t ∧ SameOutside s t ∧ (∀ b, t.slot b = s.slot b) ∧ t.ie = s.ie ∧
      t.top = { s.top with res := BitVec.ofNat 16 (s.slot a).toNat, cpc := s.top.cpc + 1, phase := Phase.start }

/-- Rule R111: WRB, raw, in every region and either gate state. -/
def Obligations.WrbStoresOneSlot : Prop :=
  (∀ (a : Addr) (v : Byte), (encode (.wrb a v)).toNat = 0x20000000 + a.toNat * 2 ^ 22 + v.toNat) ∧
  ∀ (a : Addr) (v : Byte) (s : State), s.top.phase = Phase.start →
    ∃ t, exec (.wrb a v) s = .next t ∧ SameOutside s t ∧ t.slot a = v ∧ (∀ b, b ≠ a → t.slot b = s.slot b) ∧
      t.ie = s.ie ∧ t.top = { s.top with cpc := s.top.cpc + 1, phase := Phase.start }

/-- Rule R66, the write-then-read law: u is any later state in which the slot has not been written since. -/
def Obligations.ReadReturnsLastWrite : Prop :=
  ∀ (a : Addr) (v : Byte) (s t u r : State),
    (exec (.wrb a v) s = .next t → u.slot a = t.slot a → exec (.rdb a) u = .next r →
      r.top.res.toNat = v.toNat) ∧
    (exec (.bwr a v) s = .next t → u.slot a = t.slot a → exec (.rdb a) u = .next r →
      r.top.res.toNat =
        if region s.cfg a = .readWrite ∨ (region s.cfg a = .safeReadWrite ∧ s.gate = true) then v.toNat
        else (s.slot a).toNat)

/-! ### Atomic Word Access (41_atomic_word.md) -/

/-- Rule R120: RDW, its four micro-steps. -/
def Obligations.RdwMicroSteps : Prop :=
  (∀ ah al : Addr, (encode (.rdw ah al)).toNat = 0x30000000 + ah.toNat * 2 ^ 22 + al.toNat * 2 ^ 16) ∧
  ∀ (ah al : Addr) (s : State),
    (s.top.phase = ⟨0, 0⟩ → ∃ t, exec (.rdw ah al) s = .next t ∧ SameOutside s t ∧ (∀ b, t.slot b = s.slot b) ∧
      t.ie = false ∧ t.top = { s.top with sv := s.ie, phase := ⟨0, 1⟩ }) ∧
    (s.top.phase = ⟨0, 1⟩ → ∃ t, exec (.rdw ah al) s = .next t ∧ SameOutside s t ∧ (∀ b, t.slot b = s.slot b) ∧
      t.ie = s.ie ∧ t.top = { s.top with t := s.slot ah, phase := ⟨0, 2⟩ }) ∧
    (s.top.phase = ⟨0, 2⟩ → ∃ t, exec (.rdw ah al) s = .next t ∧ SameOutside s t ∧ (∀ b, t.slot b = s.slot b) ∧
      t.ie = s.ie ∧
      t.top = { s.top with res := BitVec.ofNat 16 (s.top.t.toNat * 256 + (s.slot al).toNat), phase := ⟨0, 3⟩ }) ∧
    (s.top.phase = ⟨0, 3⟩ → ∃ t, exec (.rdw ah al) s = .next t ∧ SameOutside s t ∧ (∀ b, t.slot b = s.slot b) ∧
      t.ie = s.top.sv ∧ t.top = { s.top with cpc := s.top.cpc + 1, phase := Phase.start })

/-- Rule R121: WRW, its four micro-steps. -/
def Obligations.WrwMicroSteps : Prop :=
  (∀ (ah al : Addr) (w : Word),
    (encode (.wrw ah al w)).toNat = 0x40000000 + ah.toNat * 2 ^ 22 + al.toNat * 2 ^ 16 + w.toNat) ∧
  ∀ (ah al : Addr) (w : Word) (s : State),
    (s.top.phase = ⟨0, 0⟩ → ∃ t, exec (.wrw ah al w) s = .next t ∧ SameOutside s t ∧ (∀ b, t.slot b = s.slot b) ∧
      t.ie = false ∧ t.top = { s.top with sv := s.ie, phase := ⟨0, 1⟩ }) ∧
    (s.top.phase = ⟨0, 1⟩ → ∃ t, exec (.wrw ah al w) s = .next t ∧ SameOutside s t ∧
      t.slot ah = BitVec.ofNat 8 (w.toNat / 256) ∧ (∀ b, b ≠ ah → t.slot b = s.slot b) ∧
      t.ie = s.ie ∧ t.top = { s.top with phase := ⟨0, 2⟩ }) ∧
    (s.top.phase = ⟨0, 2⟩ → ∃ t, exec (.wrw ah al w) s = .next t ∧ SameOutside s t ∧
      t.slot al = BitVec.ofNat 8 (w.toNat % 256) ∧ (∀ b, b ≠ al → t.slot b = s.slot b) ∧
      t.ie = s.ie ∧ t.top = { s.top with phase := ⟨0, 3⟩ }) ∧
    (s.top.phase = ⟨0, 3⟩ → ∃ t, exec (.wrw ah al w) s = .next t ∧ SameOutside s t ∧ (∀ b, t.slot b = s.slot b) ∧
      t.ie = s.top.sv ∧ t.top = { s.top with cpc := s.top.cpc + 1, phase := Phase.start })

/-- Rule R124, the one-step form of RDW, with rules R123 and R125: once the environment lets phase 0 happen, the next
three steps are this operation's whatever the environment decides and whatever is pending; the result is the two
addressed bytes of one bank state, on any two addresses, and IE is restored, not set. -/
def Obligations.RdwRunsAsOneBlock : Prop :=
  ∀ (ah al : Addr) (s s0 : State), s.top.phase = Phase.start → s.top.op = some (.rdw ah al) →
    chooseMove s = some (.context, s0) →
    ∃ t, steps 4 s = .next t ∧ SameOutside s0 t ∧ (∀ b, t.slot b = s.slot b) ∧ t.ie = s.ie ∧
      t.top = { s.top with
        sv := s.ie
        t := s.slot ah
        res := BitVec.ofNat 16 ((s.slot ah).toNat * 256 + (s.slot al).toNat)
        cpc := s.top.cpc + 1 }

/-- Rule R124, the one-step form of WRW, with rules R123 and R125: as for RDW; the low byte is written second, so it is
what the slot holds where both addresses are the same. -/
def Obligations.WrwRunsAsOneBlock : Prop :=
  ∀ (ah al : Addr) (w : Word) (s s0 : State), s.top.phase = Phase.start → s.top.op = some (.wrw ah al w) →
    chooseMove s = some (.context, s0) →
    ∃ t, steps 4 s = .next t ∧ SameOutside s0 t ∧ t.slot al = BitVec.ofNat 8 (w.toNat % 256) ∧
      (ah ≠ al → t.slot ah = BitVec.ofNat 8 (w.toNat / 256)) ∧
      (∀ b, b ≠ ah → b ≠ al → t.slot b = s.slot b) ∧ t.ie = s.ie ∧
      t.top = { s.top with sv := s.ie, cpc := s.top.cpc + 1 }

/-- Rules R39, R124: inside a word access the only enabled move is the access itself. -/
def Obligations.WordAccessAdmitsNoOtherMove : Prop :=
  ∀ s : State, s.Inv → s.top.inWordAccess s.cfg = true → s.moves = [.context]

/-- Rule R124 (a), (b): no torn read. In every run, whatever the streams, the deliveries and the environment's decisions,
if every write to the pair of slots is a whole word write of an admitted value, then every RDW of the pair returns an
admitted value: the initial content or a value some write wrote. -/
def Obligations.NoTornRead : Prop :=
  ∀ (ah al : Addr) (W : Word → Prop) (s t u : State), ah ≠ al → s.Inv → s.top.inWordAccess s.cfg = false →
    W (s.pair ah al) → s.everyOp (keepsPairWhole s.cfg ah al W) →
    Reaches s t → t.top.op = some (.rdw ah al) → t.top.phase = ⟨0, 2⟩ → applyMove .context t = .next u →
    W u.top.res

/-! ### Access Policy (42_access_policy.md) -/

/-- Rules R6, R52: the region function at the bounds the source fixes, by ranges and by bits; and at any bounds that cover
the addresses with no overlap, a region is exactly its range. That the bounds are fields, which may have other values, is
the model's choice (log 24), and so is what the last clause says of other values. -/
def Obligations.RegionOfEveryAddress : Prop :=
  ∀ (c : Config) (a : Addr),
    (c.statedBounds →
      (a.toNat ≤ 0x0F → region c a = .readOnly) ∧
      (0x10 ≤ a.toNat ∧ a.toNat ≤ 0x1F → region c a = .readWrite) ∧
      (0x20 ≤ a.toNat → region c a = .safeReadWrite) ∧
      (a.getLsbD 5 = true → region c a = .safeReadWrite) ∧
      (a.getLsbD 5 = false → a.getLsbD 4 = true → region c a = .readWrite) ∧
      (a.getLsbD 5 = false → a.getLsbD 4 = false → region c a = .readOnly)) ∧
    (c.regionsCover = true →
      (region c a = .readOnly ↔ c.roLo.toNat ≤ a.toNat ∧ a.toNat ≤ c.roHi.toNat) ∧
      (region c a = .readWrite ↔ c.rwLo.toNat ≤ a.toNat ∧ a.toNat ≤ c.rwHi.toNat) ∧
      (region c a = .safeReadWrite ↔ c.srwLo.toNat ≤ a.toNat ∧ a.toNat ≤ c.srwHi.toNat))

/-- Rule R140: WEQ. -/
def Obligations.WeqReportsTheGate : Prop :=
  (encode .weq).toNat = 0x60000000 ∧
  ∀ s : State, s.top.phase = Phase.start →
    ∃ t, exec .weq s = .next t ∧ SameOutside s t ∧ (∀ b, t.slot b = s.slot b) ∧ t.ie = s.ie ∧
      t.top = { s.top with
        res := if (s.slot s.cfg.flagsLo).getLsbD s.cfg.gateBit then 0x0001 else 0x0000
        cpc := s.top.cpc + 1
        phase := Phase.start }

/-- Rule R141: WEN, its two micro-steps. What phase 1 stores comes from c.t, not from the slot, so a write of the slot
between the two is lost. -/
def Obligations.WenMicroSteps : Prop :=
  (encode .wen).toNat = 0x70000000 ∧
  ∀ s : State,
    (s.top.phase = ⟨0, 0⟩ → ∃ t, exec .wen s = .next t ∧ SameOutside s t ∧ (∀ b, t.slot b = s.slot b) ∧ t.ie = s.ie ∧
      t.top = { s.top with t := s.slot s.cfg.flagsLo, phase := ⟨0, 1⟩ }) ∧
    (s.top.phase = ⟨0, 1⟩ → ∃ t, exec .wen s = .next t ∧ SameOutside s t ∧
      (∀ b, b ≠ s.cfg.flagsLo → t.slot b = s.slot b) ∧
      (∀ k : Fin 8, (t.slot s.cfg.flagsLo).getLsbD k = if k = s.cfg.gateBit then true else s.top.t.getLsbD k) ∧
      t.ie = s.ie ∧ t.top = { s.top with cpc := s.top.cpc + 1, phase := Phase.start })

/-- Rule R142: WDS, its two micro-steps. -/
def Obligations.WdsMicroSteps : Prop :=
  (encode .wds).toNat = 0x80000000 ∧
  ∀ s : State,
    (s.top.phase = ⟨0, 0⟩ → ∃ t, exec .wds s = .next t ∧ SameOutside s t ∧ (∀ b, t.slot b = s.slot b) ∧ t.ie = s.ie ∧
      t.top = { s.top with t := s.slot s.cfg.flagsLo, phase := ⟨0, 1⟩ }) ∧
    (s.top.phase = ⟨0, 1⟩ → ∃ t, exec .wds s = .next t ∧ SameOutside s t ∧
      (∀ b, b ≠ s.cfg.flagsLo → t.slot b = s.slot b) ∧
      (∀ k : Fin 8, (t.slot s.cfg.flagsLo).getLsbD k = if k = s.cfg.gateBit then false else s.top.t.getLsbD k) ∧
      t.ie = s.ie ∧ t.top = { s.top with cpc := s.top.cpc + 1, phase := Phase.start })

/-- Rules R141, R142, R144: the whole operation, not preempted: WEN unlocks, WDS locks, the other seven bits of the low
flags byte and every other slot are kept. -/
def Obligations.GateOpensAndCloses : Prop :=
  ∀ s : State, s.top.phase = Phase.start →
    (∃ t, unpreempted 2 .wen s = .next t ∧ SameOutside s t ∧ t.gate = true ∧
      (∀ k : Fin 8, k ≠ s.cfg.gateBit → (t.slot s.cfg.flagsLo).getLsbD k = (s.slot s.cfg.flagsLo).getLsbD k) ∧
      (∀ b, b ≠ s.cfg.flagsLo → t.slot b = s.slot b) ∧ t.ie = s.ie ∧
      t.top = { s.top with t := s.slot s.cfg.flagsLo, cpc := s.top.cpc + 1 }) ∧
    (∃ t, unpreempted 2 .wds s = .next t ∧ SameOutside s t ∧ t.gate = false ∧
      (∀ k : Fin 8, k ≠ s.cfg.gateBit → (t.slot s.cfg.flagsLo).getLsbD k = (s.slot s.cfg.flagsLo).getLsbD k) ∧
      (∀ b, b ≠ s.cfg.flagsLo → t.slot b = s.slot b) ∧ t.ie = s.ie ∧
      t.top = { s.top with t := s.slot s.cfg.flagsLo, cpc := s.top.cpc + 1 })

/-- Rules R143, R145: BWR, the enforcement contract, in every configuration by region and at the bounds the source fixes by
address; a denied write changes nothing but the command index. -/
def Obligations.BwrObeysTheContract : Prop :=
  (∀ (a : Addr) (v : Byte), (encode (.bwr a v)).toNat = 0x50000000 + a.toNat * 2 ^ 22 + v.toNat) ∧
  ∀ (a : Addr) (v : Byte) (s : State), s.top.phase = Phase.start →
    ∃ t, exec (.bwr a v) s = .next t ∧ SameOutside s t ∧
      (region s.cfg a = .readOnly → t.slot a = s.slot a) ∧
      (region s.cfg a = .readWrite → t.slot a = v) ∧
      (region s.cfg a = .safeReadWrite →
        t.slot a = if (s.slot s.cfg.flagsLo).getLsbD s.cfg.gateBit then v else s.slot a) ∧
      (s.cfg.statedBounds →
        (a.toNat ≤ 0x0F → t.slot a = s.slot a) ∧
        (0x10 ≤ a.toNat ∧ a.toNat ≤ 0x1F → t.slot a = v) ∧
        (0x20 ≤ a.toNat → t.slot a = if (s.slot s.cfg.flagsLo).getLsbD s.cfg.gateBit then v else s.slot a)) ∧
      (∀ b, b ≠ a → t.slot b = s.slot b) ∧ t.ie = s.ie ∧
      t.top = { s.top with cpc := s.top.cpc + 1, phase := Phase.start }

/-- Rule R148: the source's testable properties of the policy, at the region bounds the source fixes. t is the state in which WDS or WEN completes, preempted or
not; u is any later state of the same configuration in which the low flags byte has not been written since. -/
def Obligations.PolicyProperties : Prop :=
  (∀ (a : Addr) (v : Byte) (s t u r : State), s.cfg.statedBounds → s.top.phase = ⟨0, 1⟩ → 0x20 ≤ a.toNat → u.cfg = s.cfg →
    u.slot s.cfg.flagsLo = t.slot s.cfg.flagsLo → exec (.bwr a v) u = .next r →
    (exec .wds s = .next t → ∀ b, r.slot b = u.slot b) ∧
    (exec .wen s = .next t → r.slot a = v)) ∧
  (∀ (a : Addr) (v : Byte) (s t : State), s.cfg.statedBounds → exec (.bwr a v) s = .next t →
    (a.toNat ≤ 0x0F → ∀ b, t.slot b = s.slot b) ∧ (0x10 ≤ a.toNat ∧ a.toNat ≤ 0x1F → t.slot a = v)) ∧
  (∀ s t r : State, exec .init s = .next t → exec .weq t = .next r → r.top.res = 0x0000)

/-- Rule R146: which operations can write the low flags byte, in a well-formed configuration: no others, and BWR never. -/
def Obligations.FlagsByteWriters : Prop :=
  ∀ (i : Instr) (s t : State), s.cfg.wf = true → exec i s = .next t →
    t.slot s.cfg.flagsLo = s.slot s.cfg.flagsLo ∨ i = .wen ∨ i = .wds ∨ i = .init ∨ i = .ldef ∨
      (∃ v, i = .wrb s.cfg.flagsLo v) ∨ (∃ al w, i = .wrw s.cfg.flagsLo al w) ∨ (∃ ah w, i = .wrw ah s.cfg.flagsLo w)

/-- Rule R146, over whole runs: from a state with every context between operations and the gate locked, if no stream holds
WEN and no raw write sets the gate bit of the low flags byte, the gate stays locked in every run, whatever else the
streams do (BWR, WDS, INIT, LDEF among it) and however interrupts are delivered. -/
def Obligations.LockedGateOpensOnlyByWen : Prop :=
  ∀ s t : State, s.Inv → (∀ c ∈ s.stack, c.phase = Phase.start) → s.gate = false →
    s.everyOp (cannotUnlock s.cfg) → Reaches s t → t.gate = false

/-! ### Lifecycle (43_lifecycle.md) -/

/-- Rule R160: INIT, refused exactly while IE = 1. -/
def Obligations.InitZeroesTheBank : Prop :=
  (encode .init).toNat = 0x90000000 ∧
  ∀ s : State,
    (s.ie = true → exec .init s = .refused .initWithInterruptsEnabled) ∧
    (s.ie = false → s.top.phase = Phase.start →
      ∃ t, exec .init s = .next t ∧ SameOutside s t ∧ (∀ b, t.slot b = 0x00) ∧ t.gate = false ∧ t.ie = false ∧
        t.top = { s.top with cpc := s.top.cpc + 1, phase := Phase.start })

/-- Rule R161: every micro-step of LDEF, entry by entry, and the empty list. next is the phase after the micro-step and
its command index. -/
def Obligations.LdefMicroSteps : Prop :=
  (encode .ldef).toNat = 0xA0000000 ∧
  ∀ (s : State) (e : DefaultEntry) (n j : Nat),
    let next : Context → Context := fun c =>
      if j + 1 < entrySteps e then { c with phase := ⟨n, j + 1⟩ }
      else if n + 1 < s.cfg.defaults.length then { c with phase := ⟨n + 1, 0⟩ }
      else { c with cpc := c.cpc + 1, phase := Phase.start }
    (s.cfg.defaults = [] → s.top.phase = Phase.start → ∃ t, exec .ldef s = .next t ∧ SameOutside s t ∧
      (∀ b, t.slot b = s.slot b) ∧ t.ie = s.ie ∧ t.top = { s.top with cpc := s.top.cpc + 1 }) ∧
    (s.cfg.defaults[n]? = some e → s.top.phase = ⟨n, j⟩ →
      (∀ a v, e = .byte a v → j = 0 → ∃ t, exec .ldef s = .next t ∧ SameOutside s t ∧ t.slot a = v ∧
        (∀ b, b ≠ a → t.slot b = s.slot b) ∧ t.ie = s.ie ∧ t.top = next s.top) ∧
      (∀ ah al w, e = .word ah al w →
        (j = 0 → ∃ t, exec .ldef s = .next t ∧ SameOutside s t ∧ (∀ b, t.slot b = s.slot b) ∧ t.ie = false ∧
          t.top = next { s.top with sv := s.ie }) ∧
        (j = 1 → ∃ t, exec .ldef s = .next t ∧ SameOutside s t ∧ t.slot ah = BitVec.ofNat 8 (w.toNat / 256) ∧
          (∀ b, b ≠ ah → t.slot b = s.slot b) ∧ t.ie = s.ie ∧ t.top = next s.top) ∧
        (j = 2 → ∃ t, exec .ldef s = .next t ∧ SameOutside s t ∧ t.slot al = BitVec.ofNat 8 (w.toNat % 256) ∧
          (∀ b, b ≠ al → t.slot b = s.slot b) ∧ t.ie = s.ie ∧ t.top = next s.top) ∧
        (j = 3 → ∃ t, exec .ldef s = .next t ∧ SameOutside s t ∧ (∀ b, t.slot b = s.slot b) ∧ t.ie = s.top.sv ∧
          t.top = next s.top)) ∧
      (∀ a m v, e = .bits a m v →
        (j = 0 → ∃ t, exec .ldef s = .next t ∧ SameOutside s t ∧ (∀ b, t.slot b = s.slot b) ∧ t.ie = s.ie ∧
          t.top = next { s.top with t := s.slot a }) ∧
        (j = 1 → ∃ t, exec .ldef s = .next t ∧ SameOutside s t ∧
          (∀ k : Fin 8, (t.slot a).getLsbD k = if m.getLsbD k then v.getLsbD k else s.top.t.getLsbD k) ∧
          (∀ b, b ≠ a → t.slot b = s.slot b) ∧ t.ie = s.ie ∧ t.top = next s.top)))

/-- Rule R162: what the mask cover and the value dval of DEFAULTS are, bit by bit: a bit is covered iff an entry covers
it, and its value is that of the last entry that does. Where both addresses of a Word entry are the same the low byte is
the one written last (rule R123). -/
def Obligations.CoverAndValueOfDefaults : Prop :=
  ∀ (ds : List DefaultEntry) (a : Addr) (k : Fin 8),
    let covers : DefaultEntry → Prop := fun e =>
      (∃ v, e = .byte a v) ∨ (∃ al w, e = .word a al w) ∨ (∃ ah w, e = .word ah a w) ∨
        (∃ m v, e = .bits a m v ∧ m.getLsbD k = true)
    ((cover ds a).getLsbD k = true ↔ ∃ e ∈ ds, covers e) ∧
    (∀ pre e post, ds = pre ++ e :: post → covers e → (∀ d ∈ post, ¬ covers d) →
      (∀ v, e = .byte a v → (dval ds a).getLsbD k = v.getLsbD k) ∧
      (∀ ah w, e = .word ah a w → (dval ds a).getLsbD k = w.getLsbD k) ∧
      (∀ al w, e = .word a al w → al ≠ a → (dval ds a).getLsbD k = w.getLsbD (8 + k)) ∧
      (∀ m v, e = .bits a m v → (dval ds a).getLsbD k = v.getLsbD k))

/-- Rules R161, R162: the net effect of LDEF, not preempted, for every list of defaults: each bit of the bank takes the
value of the last entry that covers it, every other bit is kept; IE and the result register are as before. -/
def Obligations.LdefNetEffect : Prop :=
  ∀ s : State, s.top.phase = Phase.start →
    ∃ t, unpreempted (ldefSteps s.cfg.defaults) .ldef s = .next t ∧ SameOutside s t ∧
      (∀ a, t.slot a =
        (s.slot a &&& ~~~(cover s.cfg.defaults a)) ||| (dval s.cfg.defaults a &&& cover s.cfg.defaults a)) ∧
      t.ie = s.ie ∧ t.top.res = s.top.res ∧ t.top.cpc = s.top.cpc + 1 ∧ t.top.phase = Phase.start

/-- Rule R164, which the spec derives from R161 and R162: LDEF is deterministic on the bits it covers, from any two banks; twice is the same as once; and in a
well-formed configuration it does not cover the whole bank. -/
def Obligations.LdefIsDeterministic : Prop :=
  (∀ s1 s2 t1 t2 : State, s1.cfg = s2.cfg → s1.top.phase = Phase.start → s2.top.phase = Phase.start →
    unpreempted (ldefSteps s1.cfg.defaults) .ldef s1 = .next t1 →
    unpreempted (ldefSteps s2.cfg.defaults) .ldef s2 = .next t2 →
    ∀ a, t1.slot a &&& cover s1.cfg.defaults a = t2.slot a &&& cover s1.cfg.defaults a ∧
      t1.slot a &&& cover s1.cfg.defaults a = dval s1.cfg.defaults a &&& cover s1.cfg.defaults a) ∧
  (∀ s t u : State, s.top.phase = Phase.start → unpreempted (ldefSteps s.cfg.defaults) .ldef s = .next t →
    unpreempted (ldefSteps s.cfg.defaults) .ldef t = .next u → ∀ a, u.slot a = t.slot a) ∧
  (∀ c : Config, c.wf = true → ∃ a, cover c.defaults a ≠ 0xFF)

/-- Rules R161, R163: LDEF, not preempted, leaves the gate as it was, in every well-formed configuration. -/
def Obligations.LdefKeepsTheGate : Prop :=
  ∀ s t : State, s.cfg.wf = true → s.top.phase = Phase.start →
    unpreempted (ldefSteps s.cfg.defaults) .ldef s = .next t → t.gate = s.gate

/-! ### The interrupt mask operations (44_interrupt_mask.md) -/

/-- Rule R180: IEN. -/
def Obligations.IenEnablesDelivery : Prop :=
  (encode .ien).toNat = 0xB0000000 ∧
  ∀ s : State, s.top.phase = Phase.start →
    ∃ t, exec .ien s = .next t ∧ SameOutside s t ∧ (∀ b, t.slot b = s.slot b) ∧ t.ie = true ∧
      t.top = { s.top with cpc := s.top.cpc + 1, phase := Phase.start }

/-- Rule R181: IDS. -/
def Obligations.IdsSuspendsDelivery : Prop :=
  (encode .ids).toNat = 0xC0000000 ∧
  ∀ s : State, s.top.phase = Phase.start →
    ∃ t, exec .ids s = .next t ∧ SameOutside s t ∧ (∀ b, t.slot b = s.slot b) ∧ t.ie = false ∧
      t.top = { s.top with cpc := s.top.cpc + 1, phase := Phase.start }

/-! ### Frames and completion, over all instructions -/

/-- Rules R26, R27, R37, R62: no operation touches the configuration, any other context, any stream, the deliveries left or
the environment's decisions; and its command index either stays, inside the operation, or advances by one at its end. -/
def Obligations.OperationsTouchOnlyTheRunningContext : Prop :=
  ∀ (i : Instr) (s t : State), exec i s = .next t →
    SameOutside s t ∧
    ((t.top.cpc = s.top.cpc ∧ t.top.phase ≠ Phase.start ∧ legalPhase s.cfg i t.top.phase = true) ∨
     (t.top.cpc = s.top.cpc + 1 ∧ t.top.phase = Phase.start))

/-- Rule R22, slots written: every slot an operation does not name keeps its byte. -/
def Obligations.OperationsWriteOnlyTheirSlots : Prop :=
  ∀ (i : Instr) (s t : State) (a : Addr), exec i s = .next t → a ∉ writtenSlots s.cfg i → t.slot a = s.slot a

/-- Rule R22, slots read: an operation cannot tell apart two banks that agree on the slots it reads: it answers alike, the
running context and IE end alike, and each slot either ends alike or was not written in either. -/
def Obligations.OperationsReadOnlyTheirSlots : Prop :=
  ∀ (i : Instr) (s s' t : State), s' = { s with bank := s'.bank } →
    (∀ a ∈ readSlots s.cfg i, s'.slot a = s.slot a) → exec i s = .next t →
    ∃ t', exec i s' = .next t' ∧ t'.top = t.top ∧ t'.ie = t.ie ∧
      ∀ a, t'.slot a = t.slot a ∨ (t'.slot a = s'.slot a ∧ t.slot a = s.slot a)

/-- Rule R25: which operations write IE; the others do not read it either, but for INIT's precondition: with IE flipped
they do the same. -/
def Obligations.OnlyMaskingOperationsUseIe : Prop :=
  ∀ (i : Instr) (s t : State), exec i s = .next t →
    (∀ ah al, i ≠ .rdw ah al) → (∀ ah al w, i ≠ .wrw ah al w) → i ≠ .ldef → i ≠ .ien → i ≠ .ids →
    t.ie = s.ie ∧ (i ≠ .init → ∀ b, exec i { s with ie := b } = .next { t with ie := b })

/-- Rules R29, R30, R31: which operations write c.res, c.sv and c.t. -/
def Obligations.MicroStateWriters : Prop :=
  ∀ (i : Instr) (s t : State), exec i s = .next t →
    (t.top.res ≠ s.top.res → (∃ a, i = .rdb a) ∨ (∃ ah al, i = .rdw ah al) ∨ i = .weq) ∧
    (t.top.sv ≠ s.top.sv → (∃ ah al, i = .rdw ah al) ∨ (∃ ah al w, i = .wrw ah al w) ∨ i = .ldef) ∧
    (t.top.t ≠ s.top.t → (∃ ah al, i = .rdw ah al) ∨ i = .wen ∨ i = .wds ∨ i = .ldef)

/-- Rules R14, R15, R160, R190: what exec answers, for every instruction in every state: INIT with IE = 1 is refused; at
every row of its phase table an operation answers a next state; a phase that is no row is no micro-step. -/
def Obligations.ExecAnswersByPhase : Prop :=
  ∀ (i : Instr) (s : State),
    (i = .init → s.ie = true → exec i s = .refused .initWithInterruptsEnabled) ∧
    ((i = .init → s.ie = false) →
      (legalPhase s.cfg i s.top.phase = true → ∃ t, exec i s = .next t) ∧
      (legalPhase s.cfg i s.top.phase = false → exec i s = .fault .noSuchMicroStep))

/-- Rules R14, R236: every operation runs to completion in its number of micro-steps; the command index is then one more
and IE what it was, but for IEN and IDS. -/
def Obligations.WholeOperationsComplete : Prop :=
  ∀ (i : Instr) (s : State), s.top.phase = Phase.start → (i = .init → s.ie = false) →
    ∃ t, unpreempted (opSteps s.cfg i) i s = .next t ∧ SameOutside s t ∧ t.top.cpc = s.top.cpc + 1 ∧
      t.top.phase = Phase.start ∧ (i ≠ .ien → i ≠ .ids → t.ie = s.ie)

/-! ### Interrupts (60_exceptions.md) -/

/-- Rule R196: when a delivery is enabled, and what it does: the preempted contexts stay on the stack as they are, the new
one starts its stream at index 0 and phase 0, IE is cleared, the source has one delivery less; nothing else changes. That
entry clears IE is marked by the rule as general knowledge, not in the source (log 16). -/
def Obligations.DeliveryOfAnInterrupt : Prop :=
  ∀ (s : State) (k : Nat),
    (Move.deliver k ∈ s.moves ↔
      1 ≤ k ∧ k ≤ s.cfg.nirq ∧ s.ie = true ∧ s.deliveries.getD (k - 1) [] ≠ [] ∧
        (s.cfg.sameSourceReentry = true ∨ ∀ h ∈ s.handlers, h.source ≠ k)) ∧
    (∀ (H : Stream) (rest : List Stream), s.deliveries.getD (k - 1) [] = H :: rest → 1 ≤ k →
      ∃ t c, applyMove (.deliver k) s = .next t ∧ t.stack = s.stack ++ [c] ∧
        c.stream = H ∧ c.cpc = 0 ∧ c.phase = Phase.start ∧
        t.handlers.map Handler.source = k :: s.handlers.map Handler.source ∧ t.ie = false ∧
        (∀ b, t.slot b = s.slot b) ∧ t.cfg = s.cfg ∧ t.choices = s.choices ∧ t.deliveries.getD (k - 1) [] = rest ∧
        t.deliveries.length = s.deliveries.length ∧
        ∀ n, n ≠ k - 1 → t.deliveries.getD n [] = s.deliveries.getD n [])

/-- Rule R198: when the return is enabled, and what it does: the handler is gone, the contexts below it are as they were,
the one now on top resumes, IE is set; nothing else changes. That the return sets IE rests on the same passage from
general knowledge as the entry (93_implementation_defined.md G5, log 16). -/
def Obligations.ReturnFromAHandler : Prop :=
  ∀ s : State,
    (Move.handlerReturn ∈ s.moves ↔
      s.handlers ≠ [] ∧ s.top.phase = Phase.start ∧ s.top.cpc = s.top.stream.length) ∧
    (s.handlers ≠ [] → ∃ t, applyMove .handlerReturn s = .next t ∧ t.stack = s.below ∧ t.ie = true ∧
      t.handlers.map Handler.source = (s.handlers.map Handler.source).tail ∧ (∀ b, t.slot b = s.slot b) ∧
      t.cfg = s.cfg ∧ t.deliveries = s.deliveries ∧ t.choices = s.choices ∧ t.draws = s.draws)

/-- Rule R201: without re-entry the stack is at most 1 + NIRQ deep. -/
def Obligations.StackDepthIsBounded : Prop :=
  ∀ s : State, s.Inv → s.cfg.sameSourceReentry = false → s.stack.length ≤ 1 + s.cfg.nirq

/-- Rules R14, R200: inside an operation the running context is never stuck: its next micro-step happens. -/
def Obligations.NoContextIsStuckInsideAnOperation : Prop :=
  ∀ s : State, s.Inv → s.top.phase ≠ Phase.start →
    Move.context ∈ s.moves ∧ ∃ t, applyMove .context s = .next t

/-- Rules R199, R200: the only states without a step are the final ones, those whose top context's next word is refused, and
those where MAIN has finished with IE = 0 and a delivery left; the first answer finished, the last stuck (the
model's own names for no step, log 7). -/
def Obligations.StuckStatesAreTheTwo : Prop :=
  ∀ s : State, s.Inv →
    ((∀ t, ¬ Moves s t) → s.final = false →
      (s.top.phase = Phase.start ∧
        ∃ cw, s.top.word = some cw ∧ ((∃ e, decode cw = .error e) ∨ (decode cw = .ok .init ∧ s.ie = true))) ∨
      (s.handlers = [] ∧ s.main.finished = true ∧ s.ie = false ∧ ∃ l ∈ s.deliveries, l ≠ [])) ∧
    (s.handlers = [] → s.main.finished = true → s.ie = false → (∃ l ∈ s.deliveries, l ≠ []) →
      (∀ t, ¬ Moves s t) ∧ step s = .fault .stuck) ∧
    (s.final = true → (∀ t, ¬ Moves s t) ∧ step s = .refused .finished)

/-- Rule R200: every run is finite. -/
def Obligations.EveryRunIsFinite : Prop :=
  ∀ f : Nat → State, (f 0).Inv → ¬ ∀ n, Moves (f n) (f (n + 1))

/-! ### Invariants (10_state.md rule R39) and power-on -/

/-- Rules R38, R199, R220: power-on, for every launch: IE = 0, the stack is MAIN alone at index 0 and phase 0 of its stream, and
every delivery is left, the bank is the launch's; in State.reset too IE = 0 and MAIN is alone at index 0 and phase 0.
Nothing is said of sv, t and res, nor of the bank of State.reset: the spec leaves them open. -/
def Obligations.PowerOnState : Prop :=
  (∀ l : Launch, l.initial.ie = false ∧ l.initial.stack = [l.initial.main] ∧ l.initial.main.stream = l.main ∧
    l.initial.main.cpc = 0 ∧ l.initial.main.phase = Phase.start ∧ l.initial.deliveries = l.deliveries ∧
    l.initial.cfg = l.cfg ∧ ∀ a : Addr, l.initial.slot a = l.bank[a.toNat]'(a.isLt)) ∧
  State.reset.ie = false ∧ State.reset.stack = [State.reset.main] ∧ State.reset.main.cpc = 0 ∧
  State.reset.main.phase = Phase.start

/-- The invariant holds at power-on of every launch whose configuration is well formed and that has one delivery list for
each source, State.reset among them. -/
def Obligations.PowerOnInvariant : Prop :=
  (∀ l : Launch, l.cfg.wf = true → l.deliveries.length = l.cfg.nirq → l.initial.Inv) ∧ State.reset.Inv

/-- Rule R39: every step keeps the invariant. -/
def Obligations.StepKeepsTheInvariant : Prop := ∀ s t : State, s.Inv → step s = .next t → t.Inv

/-- Rules R27, R37, R62: a move leaves every context that stays on the stack its stream, so a new one is a handler stream
taken from the deliveries; in every run the configuration and MAIN's stream stay what the launch made them, every stream
on the stack or still to be delivered is one that the run began with, and no index leaves its stream. -/
def Obligations.StreamsNeverChange : Prop :=
  (∀ s t : State, Moves s t →
    t.stack.map Context.stream = s.stack.map Context.stream ∨
    (∃ k H rest, s.deliveries.getD (k - 1) [] = H :: rest ∧
      t.stack.map Context.stream = s.stack.map Context.stream ++ [H]) ∨
    t.stack.map Context.stream = s.below.map Context.stream) ∧
  (∀ s t : State, s.Inv → Reaches s t →
    t.cfg = s.cfg ∧ t.main.stream = s.main.stream ∧
    (∀ st ∈ t.stack.map Context.stream ++ t.deliveries.flatten, st ∈ s.stack.map Context.stream ++ s.deliveries.flatten) ∧
    ∀ c ∈ t.stack, c.cpc ≤ c.stream.length)

/-- Rule R222: in every run of a launch whose MAIN stream conforms to the boot order, until INIT has completed IE = 0 and no
handler is on the stack, so INIT is not refused and no other context sees the bank before it. -/
def Obligations.BootRunsMaskedUntilInit : Prop :=
  ∀ (l : Launch) (s : State), bootConforms l.cfg l.main = true → Reaches l.initial s → s.main.cpc ≤ initIndex l.main →
    s.ie = false ∧ s.handlers = []
end

