-- ==== Sys2Proof/Laws/Decode.lean ====
section
/-! SUPPORT. The fields of a command word put together from fields, and a word put together from its own fields. -/

namespace Sys2Proof

variable (o : BitVec 4) (a b : Addr) (d : Word) (h v : Byte) (cw : Command)

@[simp] theorem fieldOp_assembleFields : fieldOp (assembleFields o a b d) = o := by
  apply BitVec.eq_of_getLsbD_eq
  intro i hi
  simp only [fieldOp, assembleFields, BitVec.getLsbD_extractLsb', BitVec.getLsbD_append, hi, decide_true, Bool.true_and]
  rw [if_neg (by omega), if_neg (by omega), if_neg (by omega)]
  congr 1; omega

@[simp] theorem fieldA_assembleFields : fieldA (assembleFields o a b d) = a := by
  apply BitVec.eq_of_getLsbD_eq
  intro i hi
  simp only [fieldA, assembleFields, BitVec.getLsbD_extractLsb', BitVec.getLsbD_append, hi, decide_true, Bool.true_and]
  rw [if_neg (by omega), if_neg (by omega), if_pos (by omega)]
  congr 1; omega

@[simp] theorem fieldB_assembleFields : fieldB (assembleFields o a b d) = b := by
  apply BitVec.eq_of_getLsbD_eq
  intro i hi
  simp only [fieldB, assembleFields, BitVec.getLsbD_extractLsb', BitVec.getLsbD_append, hi, decide_true, Bool.true_and]
  rw [if_neg (by omega), if_pos (by omega)]
  congr 1; omega

@[simp] theorem fieldD_assembleFields : fieldD (assembleFields o a b d) = d := by
  apply BitVec.eq_of_getLsbD_eq
  intro i hi
  simp only [fieldD, assembleFields, BitVec.getLsbD_extractLsb', BitVec.getLsbD_append, hi, decide_true, Bool.true_and]
  rw [if_pos (by omega)]
  congr 1; omega

@[simp] theorem fieldDHi_assembleFields : fieldDHi (assembleFields o a b (h ++ v)) = h := by
  apply BitVec.eq_of_getLsbD_eq
  intro i hi
  simp only [fieldDHi, assembleFields, BitVec.getLsbD_extractLsb', BitVec.getLsbD_append, hi, decide_true, Bool.true_and]
  rw [if_pos (by omega), if_neg (by omega)]
  congr 1; omega

@[simp] theorem fieldDLo_assembleFields : fieldDLo (assembleFields o a b (h ++ v)) = v := by
  apply BitVec.eq_of_getLsbD_eq
  intro i hi
  simp only [fieldDLo, assembleFields, BitVec.getLsbD_extractLsb', BitVec.getLsbD_append, hi, decide_true, Bool.true_and]
  rw [if_pos (by omega), if_pos (by omega)]
  congr 1; omega

@[simp] theorem fieldRest_assembleFields : fieldRest (assembleFields o 0#6 0#6 0#16) = 0#28 := by
  apply BitVec.eq_of_getLsbD_eq
  intro i hi
  simp only [fieldRest, assembleFields, BitVec.getLsbD_extractLsb', BitVec.getLsbD_append, hi, decide_true, Bool.true_and,
    BitVec.getLsbD_zero]
  split
  · rfl
  · split
    · rfl
    · split
      · rfl
      · exact BitVec.getLsbD_of_ge _ _ (by omega)

/-- A command word is its four fields (rule R81). -/
theorem assembleFields_fields : assembleFields (fieldOp cw) (fieldA cw) (fieldB cw) (fieldD cw) = cw := by
  apply BitVec.eq_of_getLsbD_eq
  intro i hi
  simp only [fieldOp, fieldA, fieldB, fieldD, assembleFields, BitVec.getLsbD_extractLsb', BitVec.getLsbD_append]
  split
  · simp only [*, decide_true, Bool.true_and]; congr 1; omega
  · split
    · simp only [*, decide_true, Bool.true_and]; congr 1; omega
    · split
      · simp only [*, decide_true, Bool.true_and]; congr 1; omega
      · rw [decide_eq_true (by omega), Bool.true_and]; congr 1; omega

/-- D is its two bytes (rule R82). -/
theorem fieldD_bytes : fieldD cw = fieldDHi cw ++ fieldDLo cw := by
  apply BitVec.eq_of_getLsbD_eq
  intro i hi
  simp only [fieldD, fieldDHi, fieldDLo, BitVec.getLsbD_extractLsb', BitVec.getLsbD_append, hi, decide_true, Bool.true_and]
  split
  · simp only [*, decide_true, Bool.true_and]
  · rw [decide_eq_true (by omega), Bool.true_and]; congr 1; omega

/-- The bits format N leaves unused are A, B and D (rule R82). -/
theorem fieldRest_eq_zero : fieldRest cw = 0#28 ↔ fieldA cw = 0#6 ∧ fieldB cw = 0#6 ∧ fieldD cw = 0#16 := by
  constructor
  · intro hr
    have bit : ∀ j, j < 28 → cw.getLsbD j = false := by
      intro j hj
      have := congrArg (fun x => BitVec.getLsbD x j) hr
      simpa [fieldRest, BitVec.getLsbD_extractLsb', hj] using this
    refine ⟨?_, ?_, ?_⟩ <;> apply BitVec.eq_of_getLsbD_eq <;> intro i hi <;>
      simp only [fieldA, fieldB, fieldD, BitVec.getLsbD_extractLsb', BitVec.getLsbD_zero] <;>
      rw [bit _ (by omega), Bool.and_false]
  · rintro ⟨ha, hb, hd⟩
    rw [← assembleFields_fields cw, ha, hb, hd, fieldRest_assembleFields]

end Sys2Proof
end

