-- ==== Sys2Proof/Laws/Operands.lean ====
section
/-! SUPPORT. One lemma per computation of 20_memory.md rule R65, of the region function and of DEFAULTS: its value as a
number or bit by bit. -/

namespace Sys2Proof.Machine

theorem combine_eq_ofNat (h l : Byte) : combine h l = BitVec.ofNat 16 (h.toNat * 256 + l.toNat) := by
  apply BitVec.eq_of_toNat_eq
  have := h.isLt
  have := l.isLt
  simp only [combine, BitVec.toNat_append, BitVec.toNat_ofNat]
  rw [← Nat.shiftLeft_add_eq_or_of_lt (by assumption), Nat.shiftLeft_eq]
  omega

theorem widen_eq_ofNat (b : Byte) : widen b = BitVec.ofNat 16 b.toNat := by
  simp [widen, combine_eq_ofNat]

theorem hiByte_eq_ofNat (w : Word) : hiByte w = BitVec.ofNat 8 (w.toNat / 256) := by
  apply BitVec.eq_of_toNat_eq
  simp [hiByte, BitVec.extractLsb'_toNat, Nat.shiftRight_eq_div_pow]

theorem loByte_eq_ofNat (w : Word) : loByte w = BitVec.ofNat 8 (w.toNat % 256) := by
  apply BitVec.eq_of_toNat_eq
  simp [loByte, BitVec.extractLsb'_toNat]

/-- Splitting and combining again gives the word back (rule R65). -/
@[simp] theorem combine_hiByte_loByte (w : Word) : combine (hiByte w) (loByte w) = w := by
  rw [combine_eq_ofNat, hiByte_eq_ofNat, loByte_eq_ofNat]
  apply BitVec.eq_of_toNat_eq
  have := w.isLt
  simp only [BitVec.toNat_ofNat]
  omega

/-- Setting a bit sets it and keeps the other seven. -/
theorem testBit_setBit (b : Byte) (g k : Fin 8) : testBit (setBit b g) k = if k = g then true else testBit b k := by
  fin_cases g <;> fin_cases k <;> simp [testBit, setBit, bitMask]

/-- Clearing a bit clears it and keeps the other seven. -/
theorem testBit_clearBit (b : Byte) (g k : Fin 8) : testBit (clearBit b g) k = if k = g then false else testBit b k := by
  fin_cases g <;> fin_cases k <;> simp [testBit, clearBit, bitMask]

/-- A masked merge takes each bit from the value where the mask has it, else from the old byte. -/
theorem testBit_mergeMasked (b m v : Byte) (k : Fin 8) :
    testBit (mergeMasked b m v) k = if testBit m k then testBit v k else testBit b k := by
  simp only [testBit, mergeMasked, BitVec.getLsbD_or, BitVec.getLsbD_and, BitVec.getLsbD_not, k.isLt, decide_true,
    Bool.true_and]
  have aux : ∀ x y z : Bool, ((x && !y) || (z && y)) = if y = true then z else x := by decide
  exact aux _ _ _

/-- Two bytes with the same eight bits are the same. -/
theorem eq_of_testBit_eq {b c : Byte} (h : ∀ k, testBit b k = testBit c k) : b = c := by
  apply BitVec.eq_of_getLsbD_eq
  intro i hi
  exact h ⟨i, hi⟩

@[simp] theorem testBit_zero (k : Fin 8) : testBit 0#8 k = false := by simp [testBit]

/-- The region by ranges of numbers, at the bounds the source fixes (rule R52). -/
theorem region_eq {c : Config} (h : c.statedBounds) (a : Addr) :
    region c a = if a.toNat ≤ 0x0F then .readOnly else if a.toNat ≤ 0x1F then .readWrite else .safeReadWrite := by
  obtain ⟨h1, h2, h3, h4, -, -⟩ := h
  simp only [region, h1, h2, h3, h4]
  revert a
  decide

/-- An entry has at least one micro-step. -/
theorem entrySteps_pos (e : DefaultEntry) : 0 < entrySteps e := by cases e <;> simp [entrySteps]

/-- The bits of cover(a) are those some entry covers (rule R162). -/
theorem testBit_cover (ds : List DefaultEntry) (a : Addr) (k : Fin 8) :
    testBit (cover ds a) k = ds.any (fun e => testBit (entryCover e a) k) := by
  have aux : ∀ acc, testBit (ds.foldl (fun acc e => acc ||| entryCover e a) acc) k =
      (testBit acc k || ds.any (fun e => testBit (entryCover e a) k)) := by
    induction ds with
    | nil => simp
    | cons e es ih =>
      intro acc
      rw [List.foldl_cons, ih, List.any_cons, ← Bool.or_assoc]
      simp [testBit]
  simp [cover, aux]

end Sys2Proof.Machine
end

