-- ==== Sys2Proof/Laws/State.lean ====
section
/-! SUPPORT. One lemma per field per update of the state, so that no later proof unfolds a record update. The updates of
the running context (setT, setRes, setPhase, finishOp, the rows) are first written as setTop. -/

namespace Sys2Proof.Machine

variable (s : State) (a b : Addr) (v : Byte) (w : Word) (c d : Context) (e : Bool)

/-! ### The updates of the running context as setTop -/

@[simp] theorem State.setT_eq : s.setT v = s.setTop { s.top with t := v } := rfl
@[simp] theorem State.setRes_eq : s.setRes w = s.setTop { s.top with res := w } := rfl
@[simp] theorem State.setPhase_eq (p : Phase) : s.setPhase p = s.setTop { s.top with phase := p } := rfl
@[simp] theorem State.finishOp_eq :
    s.finishOp = s.setTop { s.top with cpc := s.top.cpc + 1, phase := Phase.start } := rfl
@[simp] theorem maskInterrupts_eq : maskInterrupts s = (s.setTop { s.top with sv := s.ie }).setIe false := rfl
@[simp] theorem restoreInterrupts_eq : restoreInterrupts s = s.setIe s.top.sv := rfl
@[simp] theorem latchSlot_eq : latchSlot a s = s.setTop { s.top with t := s.slot a } := rfl

/-! ### writeSlot -/

@[simp] theorem State.writeSlot_cfg : (s.writeSlot a v).cfg = s.cfg := rfl
@[simp] theorem State.writeSlot_bank : (s.writeSlot a v).bank = s.bank.set a.toNat v a.isLt := rfl
@[simp] theorem State.writeSlot_ie : (s.writeSlot a v).ie = s.ie := rfl
@[simp] theorem State.writeSlot_main : (s.writeSlot a v).main = s.main := rfl
@[simp] theorem State.writeSlot_handlers : (s.writeSlot a v).handlers = s.handlers := rfl
@[simp] theorem State.writeSlot_deliveries : (s.writeSlot a v).deliveries = s.deliveries := rfl
@[simp] theorem State.writeSlot_choices : (s.writeSlot a v).choices = s.choices := rfl
@[simp] theorem State.writeSlot_draws : (s.writeSlot a v).draws = s.draws := rfl
@[simp] theorem State.writeSlot_top : (s.writeSlot a v).top = s.top := rfl
@[simp] theorem State.writeSlot_stack : (s.writeSlot a v).stack = s.stack := rfl
@[simp] theorem State.writeSlot_below : (s.writeSlot a v).below = s.below := rfl

/-- Read after write (rule R21): the slot written holds the value, every other slot is left alone. -/
@[simp] theorem State.writeSlot_slot : (s.writeSlot a v).slot b = if b = a then v else s.slot b := by
  simp [State.slot, State.writeSlot, Vector.getElem_set, BitVec.toNat_eq, eq_comm]

/-! ### zeroBank -/

@[simp] theorem zeroes_eq (c : Config) : zeroes c = Vector.replicate 64 0x00 := by
  apply Vector.ext; intro i hi; simp [zeroes]
@[simp] theorem State.zeroBank_cfg : s.zeroBank.cfg = s.cfg := rfl
@[simp] theorem State.zeroBank_ie : s.zeroBank.ie = s.ie := rfl
@[simp] theorem State.zeroBank_main : s.zeroBank.main = s.main := rfl
@[simp] theorem State.zeroBank_handlers : s.zeroBank.handlers = s.handlers := rfl
@[simp] theorem State.zeroBank_deliveries : s.zeroBank.deliveries = s.deliveries := rfl
@[simp] theorem State.zeroBank_choices : s.zeroBank.choices = s.choices := rfl
@[simp] theorem State.zeroBank_draws : s.zeroBank.draws = s.draws := rfl
@[simp] theorem State.zeroBank_top : s.zeroBank.top = s.top := rfl
@[simp] theorem State.zeroBank_stack : s.zeroBank.stack = s.stack := rfl
@[simp] theorem State.zeroBank_below : s.zeroBank.below = s.below := rfl
@[simp] theorem State.zeroBank_slot : s.zeroBank.slot a = 0 := by
  simp [State.slot, State.zeroBank]

/-! ### setIe -/

@[simp] theorem State.setIe_cfg : (s.setIe e).cfg = s.cfg := rfl
@[simp] theorem State.setIe_bank : (s.setIe e).bank = s.bank := rfl
@[simp] theorem State.setIe_ie : (s.setIe e).ie = e := rfl
@[simp] theorem State.setIe_main : (s.setIe e).main = s.main := rfl
@[simp] theorem State.setIe_handlers : (s.setIe e).handlers = s.handlers := rfl
@[simp] theorem State.setIe_deliveries : (s.setIe e).deliveries = s.deliveries := rfl
@[simp] theorem State.setIe_choices : (s.setIe e).choices = s.choices := rfl
@[simp] theorem State.setIe_draws : (s.setIe e).draws = s.draws := rfl
@[simp] theorem State.setIe_top : (s.setIe e).top = s.top := rfl
@[simp] theorem State.setIe_slot : (s.setIe e).slot a = s.slot a := rfl
@[simp] theorem State.setIe_stack : (s.setIe e).stack = s.stack := rfl
@[simp] theorem State.setIe_below : (s.setIe e).below = s.below := rfl

/-! ### setTop -/

@[simp] theorem State.setTop_cfg : (s.setTop c).cfg = s.cfg := by unfold State.setTop; split <;> rfl
@[simp] theorem State.setTop_bank : (s.setTop c).bank = s.bank := by unfold State.setTop; split <;> rfl
@[simp] theorem State.setTop_ie : (s.setTop c).ie = s.ie := by unfold State.setTop; split <;> rfl
@[simp] theorem State.setTop_deliveries : (s.setTop c).deliveries = s.deliveries := by
  unfold State.setTop; split <;> rfl
@[simp] theorem State.setTop_choices : (s.setTop c).choices = s.choices := by unfold State.setTop; split <;> rfl
@[simp] theorem State.setTop_draws : (s.setTop c).draws = s.draws := by unfold State.setTop; split <;> rfl
@[simp] theorem State.setTop_slot : (s.setTop c).slot a = s.slot a := by unfold State.setTop; split <;> rfl

/-- The running context is the one set. -/
@[simp] theorem State.setTop_top : (s.setTop c).top = c := by
  unfold State.setTop; split <;> simp_all [State.top]

/-- The sources of the handlers do not depend on the running context's micro-state. -/
@[simp] theorem State.setTop_sources : (s.setTop c).handlers.map Handler.source = s.handlers.map Handler.source := by
  unfold State.setTop; split <;> simp_all

/-- Setting the running context leaves no handler behind and takes none away. -/
@[simp] theorem State.setTop_handlers_nil : ((s.setTop c).handlers = []) ↔ s.handlers = [] := by
  unfold State.setTop; split <;> simp_all

@[simp] theorem State.setTop_setTop : (s.setTop c).setTop d = s.setTop d := by
  cases h : s.handlers <;> simp [State.setTop, h]

@[simp] theorem State.setTop_self : s.setTop s.top = s := by
  cases h : s.handlers <;> simp [State.setTop, State.top, h] <;> cases s <;> simp_all

/-! ### The stack -/

theorem State.stack_nil (h : s.handlers = []) : s.stack = [s.main] := by simp [State.stack, h]

theorem State.stack_cons (h : Handler) (hs : List Handler) (e : s.handlers = h :: hs) :
    s.stack = (s.main :: (hs.map Handler.ctx).reverse) ++ [h.ctx] := by
  simp [State.stack, e]

theorem State.below_nil (h : s.handlers = []) : s.below = [] := by simp [State.below, State.stack_nil s h]

theorem State.below_cons (h : Handler) (hs : List Handler) (e : s.handlers = h :: hs) :
    s.below = s.main :: (hs.map Handler.ctx).reverse := by
  rw [State.below, State.stack_cons s h hs e, List.dropLast_concat]

/-- The stack is the suspended contexts and the running one (rule R26). -/
theorem State.stack_eq : s.stack = s.below ++ [s.top] := by
  cases h : s.handlers with
  | nil => simp [State.below_nil s h, State.stack_nil s h, State.top, h]
  | cons x xs => simp [State.below_cons s x xs h, State.stack_cons s x xs h, State.top, h]

/-- The suspended contexts do not depend on the running one. -/
@[simp] theorem State.setTop_below : (s.setTop c).below = s.below := by
  cases h : s.handlers with
  | nil => rw [State.below_nil s h, State.below_nil _ (by simp [h])]
  | cons x xs =>
    rw [State.below_cons s x xs h, State.below_cons (s.setTop c) { x with ctx := c } xs (by simp [State.setTop, h])]
    simp [State.setTop, h]

@[simp] theorem State.setTop_stack : (s.setTop c).stack = s.below ++ [c] := by
  rw [State.stack_eq]; simp

/-! ### Updates of independent parts commute -/

@[simp] theorem State.setIe_setTop : (s.setTop c).setIe e = (s.setIe e).setTop c := by
  cases h : s.handlers <;> simp [State.setTop, State.setIe, h]

@[simp] theorem State.writeSlot_setTop : (s.setTop c).writeSlot a v = (s.writeSlot a v).setTop c := by
  cases h : s.handlers <;> simp [State.setTop, State.writeSlot, h]

@[simp] theorem State.zeroBank_setTop : (s.setTop c).zeroBank = s.zeroBank.setTop c := by
  cases h : s.handlers <;> simp [State.setTop, State.zeroBank, h]

@[simp] theorem State.setIe_setIe (e' : Bool) : (s.setIe e).setIe e' = s.setIe e' := rfl

/-! ### Interrupts -/

@[simp] theorem takeInterrupt_cfg (k : Nat) : (takeInterrupt k s).cfg = s.cfg := rfl
@[simp] theorem takeInterrupt_ie (k : Nat) : (takeInterrupt k s).ie = false := rfl
@[simp] theorem takeInterrupt_main (k : Nat) : (takeInterrupt k s).main = s.main := rfl
@[simp] theorem takeInterrupt_choices (k : Nat) : (takeInterrupt k s).choices = s.choices := rfl
@[simp] theorem takeInterrupt_slot (k : Nat) : (takeInterrupt k s).slot a = s.slot a := rfl
@[simp] theorem takeInterrupt_top (k : Nat) :
    (takeInterrupt k s).top = Context.fresh ((s.remaining k).headD []) s.draws := rfl

/-- The preempted contexts stay as they are under the new one (rule R196). -/
@[simp] theorem takeInterrupt_below (k : Nat) : (takeInterrupt k s).below = s.stack := by
  rw [State.below_cons (takeInterrupt k s) _ s.handlers rfl]; rfl

@[simp] theorem returnFromHandler_cfg : (returnFromHandler s).cfg = s.cfg := rfl
@[simp] theorem returnFromHandler_ie : (returnFromHandler s).ie = true := rfl
@[simp] theorem returnFromHandler_main : (returnFromHandler s).main = s.main := rfl
@[simp] theorem returnFromHandler_deliveries : (returnFromHandler s).deliveries = s.deliveries := rfl
@[simp] theorem returnFromHandler_choices : (returnFromHandler s).choices = s.choices := rfl
@[simp] theorem returnFromHandler_draws : (returnFromHandler s).draws = s.draws := rfl
@[simp] theorem returnFromHandler_slot : (returnFromHandler s).slot a = s.slot a := rfl

/-- The contexts left after a return are the suspended ones, unchanged (rule R198). -/
theorem returnFromHandler_stack (h : s.handlers ≠ []) : (returnFromHandler s).stack = s.below := by
  cases e : s.handlers with
  | nil => exact absurd e h
  | cons x xs => simp [State.below_cons s x xs e, State.stack, returnFromHandler, e]

/-! ### SameOutside -/

theorem SameOutside.refl : SameOutside s s := ⟨rfl, rfl, rfl, rfl, rfl, rfl, rfl⟩

theorem SameOutside.trans {s t u : State} (h : SameOutside s t) (k : SameOutside t u) : SameOutside s u :=
  ⟨k.cfg.trans h.cfg, k.below.trans h.below, k.sources.trans h.sources, k.stream.trans h.stream,
    k.deliveries.trans h.deliveries, k.choices.trans h.choices, k.draws.trans h.draws⟩

/-- Setting the running context to one with the same stream changes nothing outside it. -/
theorem sameOutside_setTop (h : c.stream = s.top.stream) : SameOutside s (s.setTop c) :=
  ⟨by simp, by simp, by simp, by simp [h], by simp, by simp, by simp⟩

theorem sameOutside_writeSlot : SameOutside s (s.writeSlot a v) := ⟨rfl, rfl, rfl, rfl, rfl, rfl, rfl⟩
theorem sameOutside_zeroBank : SameOutside s s.zeroBank := ⟨rfl, rfl, rfl, rfl, rfl, rfl, rfl⟩
theorem sameOutside_setIe : SameOutside s (s.setIe e) := ⟨rfl, rfl, rfl, rfl, rfl, rfl, rfl⟩

end Sys2Proof.Machine
end

