-- ==== Sys2Proof/Laws/Ops.lean ====
section
/-! SUPPORT. For each shared operation, one lemma that says once what it can answer: the phase tables (runRow,
runDefaults), exec as a phase table, a context step, the choice of a move, a step. -/

namespace Sys2Proof.Machine

/-- What bus_write_permitted says (42_access_policy.md rule R145). -/
theorem busWritePermitted_iff {s : State} {a : Addr} :
    busWritePermitted s a = true ↔
      region s.cfg a = .readWrite ∨ (region s.cfg a = .safeReadWrite ∧ s.gate = true) := by
  unfold busWritePermitted; cases region s.cfg a <;> simp

/-! ### Phase tables -/

/-- The state after a row: the next row's phase, or the end of the operation. -/
def advance (p : Option Phase) (s : State) : State :=
  match p with
  | some q => s.setPhase q
  | none => s.finishOp

/-- runRow at a phase of the table answers the row's effect and the next phase. -/
theorem runRow_at {rows : List (State → State)} {s : State} {k : Nat} {row : State → State}
    (hp : s.top.phase = ⟨0, k⟩) (hr : rows[k]? = some row) :
    runRow rows s = .next (advance (if k + 1 < rows.length then some ⟨0, k + 1⟩ else none) (row s)) := by
  simp only [runRow, hp, hr, if_true]
  split <;> rfl

/-- runRow answers a next state only at a row of its table. -/
theorem runRow_next {rows : List (State → State)} {s t : State} (h : runRow rows s = .next t) :
    ∃ k row, s.top.phase = ⟨0, k⟩ ∧ rows[k]? = some row ∧
      t = advance (if k + 1 < rows.length then some ⟨0, k + 1⟩ else none) (row s) := by
  rcases hp : s.top.phase with ⟨e, k⟩
  cases hr : rows[k]? with
  | none => simp [runRow, hp, hr] at h
  | some row =>
    by_cases he : e = 0
    · subst he
      rw [runRow_at hp hr] at h
      exact ⟨k, row, rfl, hr, (Host.Outcome.next.inj h).symm⟩
    · simp [runRow, hp, he] at h

/-- The phase after a micro-step of LDEF; none is the end of the operation. -/
def ldefNext (ds : List DefaultEntry) (e : DefaultEntry) (p : Phase) : Option Phase :=
  if p.sub + 1 < (entryRows e).length then some ⟨p.entry, p.sub + 1⟩
  else if p.entry + 1 < ds.length then some ⟨p.entry + 1, 0⟩
  else none

/-- runDefaults at a micro-step of an entry answers the row's effect and the next phase. -/
theorem runDefaults_at {s : State} {e : DefaultEntry} {row : State → State}
    (he : s.cfg.defaults[s.top.phase.entry]? = some e) (hr : (entryRows e)[s.top.phase.sub]? = some row) :
    runDefaults s = .next (advance (ldefNext s.cfg.defaults e s.top.phase) (row s)) := by
  have hne : ¬(s.cfg.defaults = [] ∧ s.top.phase = Phase.start) := by
    rintro ⟨h, -⟩; simp [h] at he
  simp only [runDefaults, if_neg hne, he, hr, ldefNext]
  split
  · rfl
  · split <;> rfl

/-- runDefaults of the empty list only ends the operation. -/
theorem runDefaults_nil {s : State} (h : s.cfg.defaults = []) (hp : s.top.phase = Phase.start) :
    runDefaults s = .next s.finishOp := by simp [runDefaults, h, hp]

/-- runDefaults answers a next state only for the empty list or at a micro-step of an entry. -/
theorem runDefaults_next {s t : State} (h : runDefaults s = .next t) :
    (s.cfg.defaults = [] ∧ s.top.phase = Phase.start ∧ t = s.finishOp) ∨
    ∃ e row, s.cfg.defaults[s.top.phase.entry]? = some e ∧ (entryRows e)[s.top.phase.sub]? = some row ∧
      t = advance (ldefNext s.cfg.defaults e s.top.phase) (row s) := by
  by_cases hn : s.cfg.defaults = [] ∧ s.top.phase = Phase.start
  · rw [runDefaults_nil hn.1 hn.2] at h
    exact .inl ⟨hn.1, hn.2, (Host.Outcome.next.inj h).symm⟩
  · right
    cases he : s.cfg.defaults[s.top.phase.entry]? with
    | none => simp [runDefaults, hn, he] at h
    | some e =>
      cases hr : (entryRows e)[s.top.phase.sub]? with
      | none => simp [runDefaults, hn, he, hr] at h
      | some row =>
        rw [runDefaults_at he hr] at h
        exact ⟨e, row, rfl, hr, (Host.Outcome.next.inj h).symm⟩

/-- The number of rows of an entry is its number of micro-steps. -/
@[simp] theorem entryRows_length (e : DefaultEntry) : (entryRows e).length = entrySteps e := by
  cases e <;> rfl

/-! ### exec as a phase table -/

/-- The phase table of every operation but LDEF. -/
def tableOf (c : Config) (i : Instr) : List (State → State) :=
  match i with
  | .rdb a => [fun s => s.setRes (widen (s.slot a))]
  | .wrb a v => [fun s => s.writeSlot a v]
  | .rdw ah al => [maskInterrupts, latchSlot ah, fun s => s.setRes (combine s.top.t (s.slot al)), restoreInterrupts]
  | .wrw ah al w => wordWriteRows ah al w
  | .bwr a v => [fun s => if busWritePermitted s a then s.writeSlot a v else s]
  | .weq => [fun s => s.setRes (widenBit s.gate)]
  | .wen => [latchSlot c.flagsLo, fun s => s.writeSlot c.flagsLo (setBit s.top.t c.gateBit)]
  | .wds => [latchSlot c.flagsLo, fun s => s.writeSlot c.flagsLo (clearBit s.top.t c.gateBit)]
  | .init => [State.zeroBank]
  | .ldef => []
  | .ien => [fun s => s.setIe true]
  | .ids => [fun s => s.setIe false]

/-- Every operation but LDEF runs its table, and INIT only while IE = 0. -/
theorem exec_eq_runRow {i : Instr} {s : State} (h : i ≠ .ldef) (hi : i = .init → s.ie = false) :
    exec i s = runRow (tableOf s.cfg i) s := by
  cases i <;> first | rfl | exact absurd rfl h | simp [exec, execInit, tableOf, hi rfl]

theorem exec_ldef (s : State) : exec .ldef s = runDefaults s := rfl

theorem exec_init_masked {s : State} (h : s.ie = true) : exec .init s = .refused .initWithInterruptsEnabled := by
  simp [exec, execInit, h]

theorem tableOf_length {c : Config} {i : Instr} (h : i ≠ .ldef) : (tableOf c i).length = opSteps c i := by
  cases i <;> first | rfl | exact absurd rfl h

/-- At a row of its table an operation answers the row's effect and the next phase. -/
theorem exec_at {i : Instr} {s : State} {k : Nat} {row : State → State} (h : i ≠ .ldef) (hi : i = .init → s.ie = false)
    (hp : s.top.phase = ⟨0, k⟩) (hr : (tableOf s.cfg i)[k]? = some row) :
    exec i s = .next (advance (if k + 1 < opSteps s.cfg i then some ⟨0, k + 1⟩ else none) (row s)) := by
  rw [exec_eq_runRow h hi, runRow_at hp hr, tableOf_length h]

/-- exec answers a next state only at a row of the operation's phase table: the whole of what an operation can do. -/
theorem exec_next {i : Instr} {s t : State} (h : exec i s = .next t) :
    (i ≠ .ldef ∧ (i = .init → s.ie = false) ∧ ∃ k row, s.top.phase = ⟨0, k⟩ ∧ (tableOf s.cfg i)[k]? = some row ∧
      t = advance (if k + 1 < opSteps s.cfg i then some ⟨0, k + 1⟩ else none) (row s)) ∨
    (i = .ldef ∧ s.cfg.defaults = [] ∧ s.top.phase = Phase.start ∧ t = s.finishOp) ∨
    (i = .ldef ∧ ∃ e row, s.cfg.defaults[s.top.phase.entry]? = some e ∧ (entryRows e)[s.top.phase.sub]? = some row ∧
      t = advance (ldefNext s.cfg.defaults e s.top.phase) (row s)) := by
  by_cases hl : i = .ldef
  · subst hl
    rcases runDefaults_next h with h | h
    · exact .inr (.inl ⟨rfl, h⟩)
    · exact .inr (.inr ⟨rfl, h⟩)
  · left
    have hi : i = .init → s.ie = false := by
      rintro rfl
      by_contra hc
      simp [exec_init_masked (by simpa using hc : s.ie = true)] at h
    rw [exec_eq_runRow hl hi] at h
    obtain ⟨k, row, hp, hr, ht⟩ := runRow_next h
    exact ⟨hl, hi, k, row, hp, hr, by rw [ht, tableOf_length hl]⟩

/-! ### Context steps and moves -/

/-- A context step answers a next state only by running the decoded operation. -/
theorem contextStep_next {s t : State} (h : contextStep s = .next t) :
    ∃ i, s.top.op = some i ∧ exec i s = .next t := by
  cases hw : s.top.word with
  | none => simp [contextStep, hw] at h
  | some cw =>
    cases hd : decode cw with
    | error e => simp [contextStep, hw, hd] at h
    | ok i =>
      simp only [contextStep, hw, hd] at h
      exact ⟨i, by simp [Context.op, hw, hd, Except.toOption], h⟩

/-- A context step runs the operation at the command index. -/
theorem contextStep_op {s : State} {i : Instr} (h : s.top.op = some i) : contextStep s = exec i s := by
  cases hw : s.top.word with
  | none => simp [Context.op, hw] at h
  | some cw =>
    cases hd : decode cw with
    | error e => simp [Context.op, hw, hd, Except.toOption] at h
    | ok j =>
      simp only [Context.op, hw, hd, Except.toOption, Option.some.injEq] at h
      subst h
      simp [contextStep, hw, hd]

/-- Where the next word is refused, a context step answers that refusal and no next state. -/
theorem contextStep_topRefused {s : State} (h : s.topRefused = true) :
    (contextStep s = .refused .illegalCommand ∧ ∃ cw e, s.top.word = some cw ∧ decode cw = .error e) ∨
      (contextStep s = .refused .initWithInterruptsEnabled ∧ s.top.op = some .init ∧ s.ie = true) := by
  unfold State.topRefused at h
  cases hw : s.top.word with
  | none => simp [hw] at h
  | some cw =>
    cases hd : decode cw with
    | error e => exact .inl ⟨by simp [contextStep, hw, hd], cw, e, rfl, hd⟩
    | ok i =>
      simp only [hw, hd, Bool.and_eq_true, decide_eq_true_eq] at h
      obtain ⟨-, rfl, hie⟩ := h
      exact .inr ⟨by simp [contextStep, hw, hd, exec_init_masked hie], by simp [Context.op, hw, hd, Except.toOption], hie⟩

/-- Where no move is enabled a step answers no next state. -/
theorem noMove_stops {s t : State} : noMove s ≠ .next t := by
  intro h
  unfold noMove at h
  split at h
  · next hr => rcases contextStep_topRefused hr with ⟨hc, -⟩ | ⟨hc, -⟩ <;> rw [hc] at h <;> cases h
  · split at h <;> cases h

/-- The state with the environment's decisions and the count of draws replaced: all that choosing a move changes. -/
def State.withChoices (s : State) (cs : List Move) (n : Nat) : State := { s with choices := cs, draws := n }

theorem getD_mem_cons (m : Move) (ms : List Move) (k : Nat) : (m :: ms).getD k m ∈ m :: ms := by
  by_cases h : k < (m :: ms).length
  · rw [List.getD_eq_getElem _ _ h]; exact List.getElem_mem h
  · rw [List.getD_eq_default _ _ (by omega)]; simp

/-- The chosen move is an enabled one, and choosing changes nothing but the model's own fields. -/
theorem chooseMove_some {s s0 : State} {m : Move} (h : chooseMove s = some (m, s0)) :
    m ∈ s.moves ∧ s0 = s.withChoices s0.choices s0.draws := by
  unfold chooseMove at h
  split at h
  · cases h
  · next m' hm => simp only [Option.some.injEq, Prod.mk.injEq] at h; obtain ⟨rfl, rfl⟩ := h; simp [hm, State.withChoices]
  · next m' ms _ hm =>
    split at h
    · simp only [Option.some.injEq, Prod.mk.injEq] at h
      obtain ⟨rfl, rfl⟩ := h
      exact ⟨hm ▸ getD_mem_cons _ _ _, rfl⟩
    · split at h
      · next hc =>
        simp only [Option.some.injEq, Prod.mk.injEq] at h
        obtain ⟨rfl, rfl⟩ := h
        exact ⟨hm ▸ by simpa using hc, rfl⟩
      · simp only [Option.some.injEq, Prod.mk.injEq] at h
        obtain ⟨rfl, rfl⟩ := h
        exact ⟨hm ▸ getD_mem_cons _ _ _, rfl⟩

/-- No move is chosen exactly where none is enabled. -/
theorem chooseMove_none {s : State} : chooseMove s = none ↔ s.moves = [] := by
  unfold chooseMove
  split
  · simp_all
  · simp_all
  · next hm => split <;> (try split) <;> simp_all

/-- One enabled move leaves nothing to decide. -/
theorem chooseMove_single {s : State} {m : Move} (h : s.moves = [m]) : chooseMove s = some (m, s) := by
  simp [chooseMove, h]

/-- A step answers a next state only by an enabled move. -/
theorem step_next {s t : State} (h : step s = .next t) :
    ∃ m s0, chooseMove s = some (m, s0) ∧ m ∈ s.moves ∧ s0 = s.withChoices s0.choices s0.draws ∧
      applyMove m s0 = .next t := by
  unfold step at h
  split at h
  · exact absurd h noMove_stops
  · next m s0 hc => exact ⟨m, s0, hc, (chooseMove_some hc).1, (chooseMove_some hc).2, h⟩

end Sys2Proof.Machine
end

