-- ==== Sys2Proof/Laws/PerInstr.lean ====
section
/-! SUPPORT. The family OpcodeRow, one lemma per instruction: the encoding has the bits of its row of the opcode map
(30_encoding.md rule R84). -/

namespace Sys2Proof.Laws

/-- The encoding of the instruction matches its row: encode i AND mask = match. -/
def OpcodeRow.Statement (i : Instr) : Prop := encode i &&& (opcodeRow i).mask = (opcodeRow i).pattern

/-- A word put together from fields is masked field by field. -/
theorem assembleFields_and (o o' : BitVec 4) (a a' b b' : Addr) (d d' : Word) :
    assembleFields o a b d &&& assembleFields o' a' b' d' = assembleFields (o &&& o') (a &&& a') (b &&& b') (d &&& d') := by
  apply BitVec.eq_of_getLsbD_eq
  intro i _
  simp only [assembleFields, BitVec.getLsbD_and, BitVec.getLsbD_append]
  split <;> [rfl; split <;> [rfl; split <;> rfl]]

/-- The value of a byte operation is masked away. -/
theorem lowByte_and (v : Byte) : (0#8 ++ v) &&& (0xFF#8 ++ 0x00#8) = 0#16 := by
  rw [BitVec.and_append]; simp

theorem OpcodeRow.rdb (a : Addr) : OpcodeRow.Statement (.rdb a) :=
  (assembleFields_and 0x1#4 0xF#4 a 0#6 0#6 0x3F#6 0#16 0xFFFF#16).trans (by rw [BitVec.and_zero]; rfl)

theorem OpcodeRow.wrb (a : Addr) (v : Byte) : OpcodeRow.Statement (.wrb a v) :=
  (assembleFields_and 0x2#4 0xF#4 a 0#6 0#6 0x3F#6 (0#8 ++ v) (0xFF#8 ++ 0x00#8)).trans (by rw [BitVec.and_zero, lowByte_and]; rfl)

theorem OpcodeRow.rdw (ah al : Addr) : OpcodeRow.Statement (.rdw ah al) :=
  (assembleFields_and 0x3#4 0xF#4 ah 0#6 al 0#6 0#16 0xFFFF#16).trans (by rw [BitVec.and_zero, BitVec.and_zero]; rfl)

theorem OpcodeRow.wrw (ah al : Addr) (w : Word) : OpcodeRow.Statement (.wrw ah al w) :=
  (assembleFields_and 0x4#4 0xF#4 ah 0#6 al 0#6 w 0#16).trans (by rw [BitVec.and_zero, BitVec.and_zero, BitVec.and_zero]; rfl)

theorem OpcodeRow.bwr (a : Addr) (v : Byte) : OpcodeRow.Statement (.bwr a v) :=
  (assembleFields_and 0x5#4 0xF#4 a 0#6 0#6 0x3F#6 (0#8 ++ v) (0xFF#8 ++ 0x00#8)).trans (by rw [BitVec.and_zero, lowByte_and]; rfl)

theorem OpcodeRow.weq : OpcodeRow.Statement .weq := by unfold OpcodeRow.Statement; decide
theorem OpcodeRow.wen : OpcodeRow.Statement .wen := by unfold OpcodeRow.Statement; decide
theorem OpcodeRow.wds : OpcodeRow.Statement .wds := by unfold OpcodeRow.Statement; decide
theorem OpcodeRow.init : OpcodeRow.Statement .init := by unfold OpcodeRow.Statement; decide
theorem OpcodeRow.ldef : OpcodeRow.Statement .ldef := by unfold OpcodeRow.Statement; decide
theorem OpcodeRow.ien : OpcodeRow.Statement .ien := by unfold OpcodeRow.Statement; decide
theorem OpcodeRow.ids : OpcodeRow.Statement .ids := by unfold OpcodeRow.Statement; decide

end Sys2Proof.Laws
end

