-- ==== Sys2Proof/Laws/Run.lean ====
section
/-! SUPPORT. What is enabled when, what a row of a phase table leaves alone, and that contexts which are between
operations are in no word access: the small facts about runs that the invariants need. -/

namespace Sys2Proof.Machine

/-! ### Enabled moves (60_exceptions.md rules R194 to R198) -/

theorem mem_moves_context {s : State} :
    Move.context ∈ s.moves ↔
      ((s.top.phase ≠ Phase.start ∨ s.top.cpc < s.top.stream.length) ∧ s.topRefused = false) := by
  simp [State.moves, State.contextEnabled, Context.hasOperation]

/-- A context inside an operation is not refused. -/
theorem topRefused_inside {s : State} (h : s.top.phase ≠ Phase.start) : s.topRefused = false := by
  simp [State.topRefused, h]

/-- Between operations, what is refused is the word at the command index (rules R88, R160, R195). -/
theorem topRefused_iff {s : State} {cw : Command} (h : s.top.word = some cw) (hp : s.top.phase = Phase.start) :
    s.topRefused = true ↔ (∃ e, decode cw = .error e) ∨ (decode cw = .ok .init ∧ s.ie = true) := by
  cases hd : decode cw <;> simp [State.topRefused, h, hp, hd]

theorem mem_moves_handlerReturn {s : State} :
    Move.handlerReturn ∈ s.moves ↔
      (s.handlers ≠ [] ∧ s.top.phase = Phase.start ∧ s.top.cpc = s.top.stream.length) := by
  simp [State.moves, State.returnable, Context.finished]

theorem mem_moves_deliver {s : State} {k : Nat} :
    Move.deliver k ∈ s.moves ↔ (1 ≤ k ∧ k ≤ s.cfg.nirq ∧ s.deliverable k = true) := by
  simp [State.moves, Config.sources, and_assoc]; intro h1 _; omega

theorem deliverable_iff {s : State} {k : Nat} :
    s.deliverable k = true ↔
      s.ie = true ∧ s.deliveries.getD (k - 1) [] ≠ [] ∧
        (s.cfg.sameSourceReentry = true ∨ ∀ h ∈ s.handlers, h.source ≠ k) := by
  simp [State.deliverable, State.remaining, State.onStack, and_assoc]

/-- Where no source 1 to NIRQ can be delivered, the moves are the running context's alone. -/
theorem moves_undeliverable {s : State} (h : ∀ k, 1 ≤ k → k ≤ s.cfg.nirq → s.deliverable k = false) :
    s.moves = (if s.contextEnabled then [.context] else []) ++ (if s.returnable then [.handlerReturn] else []) := by
  have h0 : (Config.sources s.cfg).filter s.deliverable = [] := by
    rw [List.filter_eq_nil_iff]
    intro k hk
    rw [Config.sources, List.mem_range'_1] at hk
    simp [h k hk.1 (by omega)]
  simp [State.moves, h0]

/-! ### Advancing -/

section
variable (p : Option Phase) (s : State) (a : Addr)
@[simp] theorem advance_slot : (advance p s).slot a = s.slot a := by cases p <;> simp [advance]
@[simp] theorem advance_ie : (advance p s).ie = s.ie := by cases p <;> simp [advance]
@[simp] theorem advance_cfg : (advance p s).cfg = s.cfg := by cases p <;> simp [advance]
@[simp] theorem advance_below : (advance p s).below = s.below := by cases p <;> simp [advance]
@[simp] theorem advance_t : (advance p s).top.t = s.top.t := by cases p <;> simp [advance]
@[simp] theorem advance_sv : (advance p s).top.sv = s.top.sv := by cases p <;> simp [advance]
@[simp] theorem advance_res : (advance p s).top.res = s.top.res := by cases p <;> simp [advance]
@[simp] theorem advance_stream : (advance p s).top.stream = s.top.stream := by cases p <;> simp [advance]

/-- Advancing touches only the running context. -/
theorem sameOutside_advance : SameOutside s (advance p s) := by
  cases p <;> constructor <;> simp [advance]
end

/-! ### Rows -/

/-- A row of a phase table touches only the bank, IE and the running context. -/
theorem tableOf_sameOutside {c : Config} {i : Instr} {row : State → State} (h : row ∈ tableOf c i) (s : State) :
    SameOutside s (row s) := by
  cases i <;> simp only [tableOf, wordWriteRows, List.mem_cons, List.not_mem_nil, or_false] at h
  all_goals rcases h with rfl | rfl | rfl | rfl
  all_goals try (constructor <;> simp; done)
  all_goals dsimp only
  all_goals (split <;> constructor <;> simp)

/-- So does a row of an entry of DEFAULTS. -/
theorem entryRows_sameOutside {e : DefaultEntry} {row : State → State} (h : row ∈ entryRows e) (s : State) :
    SameOutside s (row s) := by
  cases e <;> simp only [entryRows, wordWriteRows, List.mem_cons, List.not_mem_nil, or_false] at h
  all_goals rcases h with rfl | rfl | rfl | rfl
  all_goals (constructor <;> simp)

/-- No row moves the command index: only the end of the operation does (10_state.md rule R27). -/
theorem tableOf_cpc {c : Config} {i : Instr} {row : State → State} (h : row ∈ tableOf c i) (s : State) :
    (row s).top.cpc = s.top.cpc := by
  cases i <;> simp only [tableOf, wordWriteRows, List.mem_cons, List.not_mem_nil, or_false] at h
  all_goals rcases h with rfl | rfl | rfl | rfl
  all_goals try (simp; done)
  all_goals dsimp only
  all_goals (split <;> simp)

theorem entryRows_cpc {e : DefaultEntry} {row : State → State} (h : row ∈ entryRows e) (s : State) :
    (row s).top.cpc = s.top.cpc := by
  cases e <;> simp only [entryRows, wordWriteRows, List.mem_cons, List.not_mem_nil, or_false] at h
  all_goals rcases h with rfl | rfl | rfl | rfl
  all_goals simp

/-! ### Contexts -/

/-- A context between operations is in no word access. -/
theorem Context.inWordAccess_start {cfg : Config} {c : Context} (h : c.phase = Phase.start) :
    c.inWordAccess cfg = false := by
  simp only [Context.inWordAccess, h]
  split <;> simp [insideWordAccess, Phase.start]

/-- The operation of a context depends on its stream and index alone. -/
theorem Context.op_congr {c d : Context} (h1 : d.stream = c.stream) (h2 : d.cpc = c.cpc) : d.op = c.op := by
  simp [Context.op, Context.word, h1, h2]

theorem State.top_mem_stack (s : State) : s.top ∈ s.stack := by rw [State.stack_eq]; simp

/-- A legal phase other than the start belongs to an operation. -/
theorem Context.op_of_valid {cfg : Config} {c : Context} (h : c.valid cfg = true) (hp : c.phase ≠ Phase.start) :
    ∃ i, c.op = some i ∧ legalPhase cfg i c.phase = true := by
  simp only [Context.valid, hp, decide_false, Bool.false_or, Bool.and_eq_true] at h
  cases ho : c.op with
  | none => simp [ho] at h
  | some i => simp [ho] at h; exact ⟨i, rfl, h.2⟩

/-- Every operation has a micro-step at its start. -/
theorem legalPhase_start (c : Config) (i : Instr) : legalPhase c i Phase.start = true := by
  unfold legalPhase
  split
  · unfold ldefPhase; split
    · next e h => simp [Phase.start, entrySteps_pos]
    · next h => simp [Phase.start] at h ⊢; exact h
  · cases i <;> simp [Phase.start, opSteps] at *

end Sys2Proof.Machine
end

