-- ==== Sys2Proof/Laws/WellFormed.lean ====
section
/-! SUPPORT. The sizes of rule R6 and the ranges of source operands as numbers (30_encoding.md rules R89, R90) and a well-formed configuration taken
apart (70_reset_and_hazards.md rule R223). -/

namespace Sys2Proof

/-! ### The sizes of rule R6 -/

@[simp] theorem Config.nslots_eq (c : Config) : c.nslots = 64 := c.sizes.1
@[simp] theorem Config.addrMax_eq (c : Config) : c.addrMax = 0x3F := c.sizes.2.1
@[simp] theorem Config.addrBits_eq (c : Config) : c.addrBits = 6 := c.sizes.2.2.1
@[simp] theorem Config.slotBits_eq (c : Config) : c.slotBits = 8 := c.sizes.2.2.2.1
@[simp] theorem Config.wordBits_eq (c : Config) : c.wordBits = 16 := c.sizes.2.2.2.2

@[simp] theorem Config.addr_eq (c : Config) (a : Nat) : c.addr a = BitVec.ofNat 6 a := by
  apply BitVec.eq_of_toNat_eq; simp [Config.addr]
@[simp] theorem Config.byte_eq (c : Config) (v : Nat) : c.byte v = BitVec.ofNat 8 v := by
  apply BitVec.eq_of_toNat_eq; simp [Config.byte]
@[simp] theorem Config.word_eq (c : Config) (w : Nat) : c.word w = BitVec.ofNat 16 w := by
  apply BitVec.eq_of_toNat_eq; simp [Config.word]

/-! ### Ranges -/

@[simp] theorem addrInRange_iff (c : Config) (a : Nat) : addrInRange c a = true ↔ a ≤ 0x3F := by simp [addrInRange]
@[simp] theorem byteInRange_iff (c : Config) (v : Nat) : byteInRange c v = true ↔ v ≤ 0xFF := by
  simp only [byteInRange, decide_eq_true_eq, Config.slotBits_eq]; exact Nat.lt_succ_iff
@[simp] theorem wordInRange_iff (c : Config) (w : Nat) : wordInRange c w = true ↔ w ≤ 0xFFFF := by
  simp only [wordInRange, decide_eq_true_eq, Config.wordBits_eq]; exact Nat.lt_succ_iff
@[simp] theorem fieldInRange_iff (c : Config) (a : Nat) : fieldInRange c a = true ↔ a ≤ 0x3E := by
  simp only [fieldInRange, decide_eq_true_eq, Config.addrMax_eq]; exact Nat.succ_le_succ_iff

namespace Config
variable {c : Config} (h : c.wf = true)
include h

theorem wf_regionsCover : c.regionsCover = true := by simp only [wf, Bool.and_eq_true] at h; exact h.1.1.1.1.1.1
theorem wf_flagsAdjacent : c.flagsLo.toNat = c.flagsHi.toNat + 1 := by
  simp only [wf, Bool.and_eq_true, flagsAdjacent, decide_eq_true_eq] at h; exact h.1.1.1.1.1.2
theorem wf_flagsReadOnly : Machine.region c c.flagsLo = .readOnly := by
  simp only [wf, Bool.and_eq_true, flagsReadOnly, decide_eq_true_eq] at h; exact h.1.1.1.1.2
theorem wf_gate_not_covered : Machine.testBit (Machine.cover c.defaults c.flagsLo) c.gateBit = false := by
  simp only [wf, Bool.and_eq_true, defaultsSpareGate, Bool.not_eq_true'] at h; exact h.1.1.2

end Config

end Sys2Proof
end

