-- ==== Sys2Proof/Tests/Slice0.lean ====
section
/-! SUPPORT. The model's own tests. Expected results come from spec/95_test_vectors.md (V-…, P…), from its rules, or are
worked by hand from them; the comment names which. The last part holds, for every obligation with hypotheses, a concrete
state and operands that meet them all together. -/

namespace Sys2Proof.Tests

open Sys2Proof Sys2Proof.Machine

/-! ### Small states (95_test_vectors.md: Z has every slot 0x00, F every slot 0xFF) -/

def ctx (st : Stream) (p : Phase) : Context where
  stream := st
  cpc := 0
  phase := p
  sv := false
  t := 0x00
  res := 0x0000

def filled (v : Byte) (ie : Bool) (c : Context) : State where
  cfg := Config.reference
  bank := Vector.replicate 64 v
  ie := ie
  main := c
  handlers := []
  deliveries := [[], []]
  choices := []
  draws := 0

/-- Z with IE = 1, MAIN between operations. -/
def z : State := filled 0x00 true (ctx [] Phase.start)
/-- F with IE = 1, MAIN between operations. -/
def f : State := filled 0xFF true (ctx [] Phase.start)
/-- Z with MAIN at the given phase. -/
def zAt (p : Phase) : State := filled 0x00 true (ctx [] p)
/-- Z with MAIN at the start of the one-word stream. -/
def zWord (cw : Command) : State := filled 0x00 true (ctx [cw] Phase.start)

/-- What is seen of the next state; none where the machine stops. -/
def seen {α : Type} (o : Outcome) (g : State → α) : Option α :=
  match o with
  | .next t => some (g t)
  | .fault _ => none
  | .refused _ => none

/-! ### Well-formedness: an ill-formed term for each check -/

theorem test_wf_rdb_addr : (SourceOp.rdb 0x3F).wf Config.reference = true ∧ (SourceOp.rdb 0x40).wf Config.reference = false := by decide
theorem test_wf_wrb_addr : (SourceOp.wrb 0x40 0).wf Config.reference = false := by decide
theorem test_wf_wrb_byte : (SourceOp.wrb 0x3F 0xFF).wf Config.reference = true ∧ (SourceOp.wrb 0 0x100).wf Config.reference = false := by decide
theorem test_wf_rdw_high : (SourceOp.rdw 0x40 0).wf Config.reference = false := by decide
theorem test_wf_rdw_low : (SourceOp.rdw 0x3F 0x3F).wf Config.reference = true ∧ (SourceOp.rdw 0 0x40).wf Config.reference = false := by decide
theorem test_wf_wrw_high : (SourceOp.wrw 0x40 0 0).wf Config.reference = false := by decide
theorem test_wf_wrw_low : (SourceOp.wrw 0 0x40 0).wf Config.reference = false := by decide
theorem test_wf_wrw_word : (SourceOp.wrw 0x3F 0x3F 0xFFFF).wf Config.reference = true ∧ (SourceOp.wrw 0 0 0x10000).wf Config.reference = false := by decide
theorem test_wf_bwr_addr : (SourceOp.bwr 0x40 0).wf Config.reference = false := by decide
theorem test_wf_bwr_byte : (SourceOp.bwr 0 0x100).wf Config.reference = false := by decide
theorem test_wf_rdf_field : (SourceOp.rdf 0x3E).wf Config.reference = true ∧ (SourceOp.rdf 0x3F).wf Config.reference = false := by decide
theorem test_wf_wrf_field : (SourceOp.wrf 0x3F 0).wf Config.reference = false := by decide
theorem test_wf_wrf_word : (SourceOp.wrf 0x3E 0xFFFF).wf Config.reference = true ∧ (SourceOp.wrf 0 0x10000).wf Config.reference = false := by decide

/-- Rule R223 and vectors: the reference configuration is well formed. -/
theorem test_wf_reference : Config.reference.wf = true := by decide
/-- Rule R32: not adjacent. -/
theorem test_wf_flags_apart : { Config.reference with flagsHi := 0x03 }.flagsAdjacent = false := by decide
/-- Rule R32: the low flags byte in the Read-Write region. -/
theorem test_wf_flags_writable : { Config.reference with flagsLo := 0x10 }.flagsReadOnly = false := by decide
/-- Rule R34: the PWM-enabled bit on the gate. -/
theorem test_wf_pwm_on_gate : { Config.reference with pwmFlag := ⟨0x05, 0⟩ }.pwmApart = false := by decide
/-- Rule R34: the PWM-enabled bit outside the flags pair. -/
theorem test_wf_pwm_elsewhere : { Config.reference with pwmFlag := ⟨0x10, 1⟩ }.pwmApart = false := by decide
/-- Rule R163 (b): a default that covers the gate. -/
theorem test_wf_default_on_gate :
    { Config.reference with defaults := [.bits 0x05 0x03 0x00] }.defaultsSpareGate = false := by decide
/-- Rule R52: an address in two regions, and one in none. -/
theorem test_wf_regions_overlap : { Config.reference with roHi := 0x10 }.regionsCover = false := by decide
theorem test_wf_regions_gap : { Config.reference with srwLo := 0x21 }.regionsCover = false := by decide
/-- Rule R6: the values of its first five rows. -/
theorem test_sizes :
    Config.reference.nslots = 64 ∧ Config.reference.addrMax = 0x3F ∧ Config.reference.addrBits = 6 ∧
    Config.reference.slotBits = 8 ∧ Config.reference.wordBits = 16 := by decide
/-- Rule R52: the reference configuration has the bounds the source fixes. -/
theorem test_stated_bounds : Config.reference.statedBounds := by decide
/-- Rule R163 (c): PWM enabled by a Byte entry, or by a Bits entry of a wider mask; and not enabled at all. -/
theorem test_wf_pwm_by_byte :
    { Config.reference with pwmFlag := ⟨0x04, 1⟩, defaults := [.byte 0x04 0x02] }.pwmOwnEntry = false ∧
    { Config.reference with defaults := [.bits 0x05 0x06 0x02] }.pwmOwnEntry = false ∧
    { Config.reference with defaults := [] }.pwmOwnEntry = true := by decide
/-- Rule R26: one source only. -/
theorem test_wf_one_source : { Config.reference with nirq := 1 }.enoughSources = false := by decide
/-- Each ill-formed configuration fails as a whole. -/
theorem test_wf_refuses :
    { Config.reference with flagsHi := 0x03 }.wf = false ∧
    { Config.reference with pwmFlag := ⟨0x05, 0⟩ }.wf = false ∧
    { Config.reference with defaults := [.bits 0x05 0x03 0x00] }.wf = false ∧
    { Config.reference with defaults := [.bits 0x05 0x06 0x02] }.wf = false ∧
    { Config.reference with srwLo := 0x21 }.wf = false ∧ { Config.reference with nirq := 1 }.wf = false ∧
    { Config.reference with flagsHi := 0x0F, flagsLo := 0x10, pwmFlag := ⟨0x10, 1⟩ }.wf = false := by decide

/-! ### Decoding: words written out bit by bit from rules R81 to R84, as op A B D -/

theorem test_decode_rdb : decode 0b0001_001000_000000_0000000000000000 = .ok (.rdb 0x08) := by decide
theorem test_decode_wrb : decode 0b0010_111111_000000_0000000011111110 = .ok (.wrb 0x3F 0xFE) := by decide
theorem test_decode_rdw : decode 0b0011_111110_111111_0000000000000000 = .ok (.rdw 0x3E 0x3F) := by decide
theorem test_decode_wrw : decode 0b0100_001001_001000_0001001000110100 = .ok (.wrw 0x09 0x08 0x1234) := by decide
theorem test_decode_bwr : decode 0b0101_100000_000000_0000000001010101 = .ok (.bwr 0x20 0x55) := by decide
theorem test_decode_weq : decode 0b0110_0000000000000000000000000000 = .ok .weq := by decide
theorem test_decode_wen : decode 0b0111_0000000000000000000000000000 = .ok .wen := by decide
theorem test_decode_wds : decode 0b1000_0000000000000000000000000000 = .ok .wds := by decide
theorem test_decode_init : decode 0b1001_0000000000000000000000000000 = .ok .init := by decide
theorem test_decode_ldef : decode 0b1010_0000000000000000000000000000 = .ok .ldef := by decide
theorem test_decode_ien : decode 0b1011_0000000000000000000000000000 = .ok .ien := by decide
theorem test_decode_ids : decode 0b1100_0000000000000000000000000000 = .ok .ids := by decide

/-- V-EN-30 to V-EN-35. -/
theorem test_illegal_opcodes :
    decode 0x00000000 = .error (.unassignedOpcode 0x0) ∧ decode 0xFFFFFFFF = .error (.unassignedOpcode 0xF) ∧
    decode 0xD0000000 = .error (.unassignedOpcode 0xD) ∧ decode 0xE0000000 = .error (.unassignedOpcode 0xE) ∧
    decode 0xF0000000 = .error (.unassignedOpcode 0xF) ∧ decode 0x0FFFFFFF = .error (.unassignedOpcode 0x0) := by decide

/-- V-EN-36 to V-EN-44. -/
theorem test_illegal_unused_fields :
    [0x12000001, 0x12010000, 0x22000112, 0x22010012, 0x52000112, 0x32090001, 0x60000001, 0x90400000, 0xC000FFFF].map
      decode = List.replicate 9 (.error .unusedFieldNotZero) := by decide

/-- V-EN-13, V-EN-15, V-EN-17, the other direction. -/
theorem test_encode :
    encode (.wrw 0x09 0x08 0x1234) = 0x42481234 ∧ encode (.wrw 0x3F 0x3F 0xFFFF) = 0x4FFFFFFF ∧
    encode (.bwr 0x3F 0xFF) = 0x5FC000FF := by decide

/-- Rule R84: no word matches two rows, since every two rows differ in a bit that both masks fix. -/
theorem test_rows_apart :
    opcodeRows.Pairwise fun r q => r.pattern &&& (r.mask &&& q.mask) ≠ q.pattern &&& (r.mask &&& q.mask) := by decide

/-- A value wider than a command word is refused. -/
theorem test_table_word_wide : decodeTableWord 40 0x0160000000 = none := by decide

/-! ### Source text (rules R89, R90; the source's example of 95_test_vectors.md S1) -/

theorem test_assemble_line :
    parseLine Config.reference "  again: WRW 0x08, 9, 0x1234 ; both bytes".toList = some (.op (.wrw 0x08 0x09 0x1234)) := by
  decide
theorem test_assemble_call :
    parseLine Config.reference "read_word(0x08,0x09)".toList = some (.op (.rdw 0x08 0x09)) := by decide
theorem test_assemble_range : parseLine Config.reference "RDB 64".toList = none := by decide
theorem test_assemble_context :
    parseLine Config.reference ".context CTL".toList = some (.context (some 2)) := by decide
/-- P6: MAIN holds INIT, one BUS delivery holds WEN. -/
theorem test_assemble_program :
    assembleProgram Config.reference [".context MAIN".toList, "INIT".toList, ".context BUS".toList, "WEN".toList] =
      some [(none, [0x90000000]), (some 1, [0x70000000])] := by decide

/-! ### One micro-step or one operation of each instruction -/

/-- V-ST-5: zero-extended, not sign-extended. -/
theorem test_rdb_zero_extends : seen (exec (.rdb 0x3F) (z.writeSlot 0x3F 0xFF)) (·.top.res) = some 0x00FF := by decide
/-- V-ST-7: raw, in the Safe-Read-Write region while Locked. -/
theorem test_wrb_is_raw : seen (exec (.wrb 0x20 0xAA) z) (fun t => (t.gate, t.slot 0x20)) = some (false, 0xAA) := by decide
/-- V-ST-6: the other slots stay. -/
theorem test_wrb_one_slot :
    seen (exec (.wrb 0x10 0x00) f) (fun t => (t.slot 0x0F, t.slot 0x10, t.slot 0x11)) = some (0xFF, 0x00, 0xFF) := by decide
/-- V-AW-12: reversed operands, the byte at the first operand is the high byte; IE restored. -/
theorem test_rdw_reversed :
    seen (unpreempted 4 (.rdw 0x3F 0x3E) ((z.writeSlot 0x3E 0xAB).writeSlot 0x3F 0xCD)) (fun t => (t.top.res, t.ie)) =
      some (0xCDAB, true) := by decide
/-- V-AW-2: after phase 0, IE saved and cleared. -/
theorem test_rdw_masks : seen (exec (.rdw 0x08 0x09) z) (fun t => (t.ie, t.top.sv, t.top.phase, t.top.cpc)) =
    some (false, true, ⟨0, 1⟩, 0) := by decide
/-- V-AW-20: across the Read-Only boundary, written whole, big-endian. -/
theorem test_wrw_across : seen (unpreempted 4 (.wrw 0x0F 0x10 0xA55A) z) (fun t => (t.slot 0x0F, t.slot 0x10, t.ie)) =
    some (0xA5, 0x5A, true) := by decide
/-- V-AW-18: equal operands, the low byte is written second. -/
theorem test_wrw_equal : seen (unpreempted 4 (.wrw 0x10 0x10 0xABCD) z) (·.slot 0x10) = some 0xCD := by decide
/-- V-AP-21, V-AP-22, V-AP-23, V-AP-24, V-AP-25: Locked, at the region boundaries. -/
theorem test_bwr_locked :
    [0x05, 0x0F, 0x10, 0x1F, 0x20].map (fun a => seen (exec (.bwr a 0xA5) ((filled 0x11 true (ctx [] Phase.start)).writeSlot
      0x05 0x10)) (·.slot a)) = [some 0x10, some 0x11, some 0xA5, some 0xA5, some 0x11] := by decide
/-- V-AP-28, V-AP-29, V-AP-30, V-AP-31, V-AP-32, V-AP-33: Unlocked. -/
theorem test_bwr_unlocked :
    [0x05, 0x0F, 0x10, 0x1F, 0x20, 0x3F].map (fun a => seen (exec (.bwr a 0xA5) (filled 0x11 true (ctx [] Phase.start)))
      (·.slot a)) = [some 0x11, some 0x11, some 0xA5, some 0xA5, some 0xA5, some 0xA5] := by decide
/-- V-AP-5, V-AP-6. -/
theorem test_weq : seen (exec .weq (z.writeSlot 0x05 0xFE)) (·.top.res) = some 0x0000 ∧
    seen (exec .weq f) (·.top.res) = some 0x0001 := by decide
/-- V-AP-7: the trace of WEN. -/
theorem test_wen_latches : seen (exec .wen (z.writeSlot 0x05 0x02)) (fun t => (t.top.t, t.slot 0x05, t.top.phase)) =
    some (0x02, 0x02, ⟨0, 1⟩) := by decide
/-- V-AP-3. -/
theorem test_wen : seen (unpreempted 2 .wen (z.writeSlot 0x05 0x02)) (fun t => (t.slot 0x05, t.top.cpc)) = some (0x03, 1) := by
  decide
/-- V-AP-6. -/
theorem test_wds : seen (unpreempted 2 .wds f) (fun t => (t.slot 0x05, t.slot 0x04, t.ie)) = some (0xFE, 0xFF, true) := by
  decide
/-- V-LC-1. -/
theorem test_init : seen (exec .init { f with ie := false }) (fun t => (t.bank.toList.all (· == 0), t.ie)) =
    some (true, false) := by decide
/-- V-LC-9. -/
theorem test_init_masked : exec .init f = .refused .initWithInterruptsEnabled := by rfl
/-- V-LC-4: from F, in seven micro-steps; the seven uncovered bits of the flags byte are kept. -/
theorem test_ldef : seen (unpreempted 7 .ldef f)
    (fun t => ([0x04, 0x05, 0x10, 0x11, 0x12, 0x20].map t.slot, t.top.cpc, t.ie)) =
      some ([0xFF, 0xFF, 0x02, 0x00, 0xFF, 0x10], 1, true) := by decide
/-- V-LC-11: the empty list. -/
theorem test_ldef_empty : seen (exec .ldef { f with cfg := { Config.reference with defaults := [] } })
    (fun t => (t.top.cpc, t.slot 0x10)) = some (1, 0xFF) := by decide
/-- V-IM-1. -/
theorem test_ien : seen (exec .ien { z with ie := false }) (·.ie) = some true := by decide
/-- V-IM-4. -/
theorem test_ids : seen (exec .ids z) (·.ie) = some false := by decide

/-! ### Moves -/

/-- P3a's shape: MAIN is about to read the pair word by word; a CTL delivery writes it. -/
def p3a : State :=
  { zWord 0x34110000 with deliveries := [[], [[0x4411BEEF]]], bank := (z.writeSlot 0x10 0x02).bank }

/-- P3a: before phase 0 the delivery may happen, after it not. -/
theorem test_no_delivery_inside : p3a.moves = [.context, .deliver 2] ∧
    seen (exec (.rdw 0x10 0x11) p3a) State.moves = some [.context] := by decide
/-- Rule R196: the handler starts at 0 on top, IE is cleared, MAIN stays as it is. -/
theorem test_delivery : seen (applyMove (.deliver 2) p3a)
    (fun t => (decide (t.top.stream = [0x4411BEEF]), t.top.cpc, t.ie, decide (t.main = p3a.main),
      decide (t.deliveries = [[], []]))) = some (true, 0, false, true, true) := by decide
/-- Rule R198: after its last word the handler returns and IE is set. -/
theorem test_return :
    let s := { z with ie := false, handlers := [⟨2, ctx [] Phase.start⟩] }
    s.moves = [.handlerReturn] ∧ seen (step s) (fun t => (t.ie, t.handlers)) = some (true, []) := by decide
/-- P6: MAIN has finished with IE = 0 and a delivery left. -/
def p6 : State := { z with ie := false, deliveries := [[[0x70000000]], []] }
theorem test_stuck : step p6 = .fault .stuck := by rfl
/-- Rule R195: a refused word does not hold up a delivery. -/
theorem test_refused_word_admits_delivery :
    { zWord 0x00000000 with deliveries := [[], [[]]] }.moves = [.deliver 2] ∧
    { zWord 0x90000000 with deliveries := [[], [[]]] }.moves = [.deliver 2] := by decide
/-- P7: an illegal word stops. -/
theorem test_illegal_stops : step (zWord 0x00000000) = .refused .illegalCommand := by rfl
/-- Rule R38, and log 13: nothing is loaded at reset. -/
theorem test_reset : State.reset.ie = false ∧ State.reset.stack.length = 1 ∧ step State.reset = .refused .finished :=
  ⟨by decide, by decide, by rfl⟩
/-- A word placed where step fetches runs as the first operation after reset. -/
theorem test_fetch_word : seen (step (State.reset.withFetchWord 32 0xB0000000)) (fun t => (t.ie, t.top.cpc)) =
    some (true, 1) := by decide

/-! ### Witnesses: what meets the hypotheses of the obligations -/

theorem witness_EncodeOfDecode : decode 0x4FFFFFFF = .ok (.wrw 0x3F 0x3F 0xFFFF) := by decide

/-- Each clause at the boundary of its range. -/
theorem witness_AssemblerChecksAndExpands :
    assemble Config.reference (.rdf 0x3E) = some (.rdw 0x3E 0x3F) ∧
    assemble Config.reference (.wrf 0x3E 0xFFFF) = some (.wrw 0x3E 0x3F 0xFFFF) ∧
    assemble Config.reference .rdflags = some (.rdw 0x04 0x05) ∧
    assemble Config.reference (.rdf 0x3F) = none ∧ assemble Config.reference (.wrf 0x3F 0) = none ∧
    assemble Config.reference (.wrb 0x40 0) = none ∧ assemble Config.reference (.bwr 0 0x100) = none ∧
    assemble Config.reference (.rdb 0x40) = none ∧ assemble Config.reference (.rdw 0x40 0) = none ∧
    assemble Config.reference (.wrw 0 0x40 0) = none ∧ assemble Config.reference (.wrw 0 0 0x10000) = none ∧
    assemble Config.reference (.wrf 0 0x10000) = none := by decide

/-- A choice between two moves, and no choice. -/
theorem witness_StepRunsDecodedOperation :
    let s := { p3a with choices := [.context] }
    s.top.word = some 0x34110000 ∧ decode 0x34110000 = .ok (.rdw 0x10 0x11) ∧ chooseMove s = some (.context, p3a) ∧
    (zWord 0x34110000).top.cpc < (zWord 0x34110000).top.stream.length := by decide

/-- No source at all is deliverable with no delivery left; the word does not matter. -/
theorem witness_StepRunsDecodedOperation_undeliverable (k : Nat) : (zWord 0x34110000).deliverable k = false := by
  have h : (zWord 0x34110000).remaining k = [] := by
    show ([[], []] : List (List Stream)).getD (k - 1) [] = []
    cases k - 1 with
    | zero => rfl
    | succ n => cases n <;> rfl
  unfold State.deliverable
  rw [h]
  rfl

/-- A BUS handler with IE = 1 before a refused word, and another BUS delivery left: no source can be delivered. -/
def busRefused (cw : Command) : State :=
  { z with handlers := [⟨1, ctx [cw] Phase.start⟩], deliveries := [[[0x70000000]], []] }

/-- No source 1 to NIRQ is deliverable there, for an illegal word and for INIT, and step answers the refusal. -/
theorem witness_RefusedWordsHaveNoStep_inside_handler :
    (busRefused 0x00000000).top.word = some 0x00000000 ∧ (busRefused 0x90000000).top.word = some 0x90000000 ∧
    (busRefused 0x90000000).ie = true ∧
    (∀ k ∈ Config.sources z.cfg, (busRefused 0x00000000).deliverable k = false ∧
      (busRefused 0x90000000).deliverable k = false) ∧
    step (busRefused 0x00000000) = .refused .illegalCommand ∧
    step (busRefused 0x90000000) = .refused .initWithInterruptsEnabled :=
  ⟨by decide, by decide, by decide, by decide, by rfl, by rfl⟩

/-- An illegal word and INIT while IE = 1, each with no delivery and with one. -/
theorem witness_RefusedWordsHaveNoStep :
    (zWord 0x00000000).top.word = some 0x00000000 ∧ decode 0x00000000 = .error (.unassignedOpcode 0) ∧
    (zWord 0x90000000).top.word = some 0x90000000 ∧ decode 0x90000000 = .ok .init ∧ (zWord 0x90000000).ie = true ∧
    { zWord 0x00000000 with deliveries := [[], [[]]] }.deliverable 2 = true ∧
    { zWord 0x90000000 with deliveries := [[], [[]]] }.deliverable 2 = true ∧ 2 ≤ z.cfg.nirq := by decide

/-- Each of the three moves is the one a step takes somewhere. -/
theorem witness_StepIsAnEnabledMove :
    (∃ t, step (zWord 0xB0000000) = .next t) ∧
    (∃ t, step { z with ie := false, handlers := [⟨2, ctx [] Phase.start⟩] } = .next t) ∧
    (∃ t, step { z with deliveries := [[], [[0x4411BEEF]]] } = .next t) := ⟨⟨_, rfl⟩, ⟨_, rfl⟩, ⟨_, rfl⟩⟩

theorem witness_EveryEnabledMoveCanBeTaken :
    (Move.context ∈ p3a.moves ∧ ∃ t, applyMove .context p3a = .next t) ∧
    (Move.deliver 2 ∈ p3a.moves ∧ ∃ t, applyMove (.deliver 2) p3a = .next t) :=
  ⟨⟨by decide, _, rfl⟩, by decide, _, rfl⟩

/-- The start phase of RdbReadsOneSlot, WrbStoresOneSlot, WeqReportsTheGate, BwrObeysTheContract, IenEnablesDelivery,
IdsSuspendsDelivery, GateOpensAndCloses, LdefNetEffect and WholeOperationsComplete, in MAIN and in a handler. -/
theorem witness_between_operations :
    z.top.phase = Phase.start ∧ { z with handlers := [⟨2, ctx [0x10000000] Phase.start⟩] }.top.phase = Phase.start := by
  decide

/-- A write and a read of the slot, at addresses of the three regions on both sides of their boundaries. -/
theorem witness_ReadReturnsLastWrite :
    (∃ t r, exec (.wrb 0x3F 0x5A) z = .next t ∧ t.slot 0x3F = t.slot 0x3F ∧ exec (.rdb 0x3F) t = .next r) ∧
    (∃ t r, exec (.bwr 0x0F 0x5A) z = .next t ∧ exec (.rdb 0x0F) t = .next r ∧ r.top.res = 0x0000) ∧
    (∃ t r, exec (.bwr 0x10 0x5A) z = .next t ∧ exec (.rdb 0x10) t = .next r ∧ r.top.res = 0x005A) ∧
    (∃ t r, exec (.bwr 0x1F 0x5A) z = .next t ∧ exec (.rdb 0x1F) t = .next r ∧ r.top.res = 0x005A) ∧
    (∃ t r, exec (.bwr 0x20 0x5A) z = .next t ∧ exec (.rdb 0x20) t = .next r ∧ r.top.res = 0x0000) ∧
    (∃ t r, exec (.bwr 0x20 0x5A) f = .next t ∧ exec (.rdb 0x20) t = .next r ∧ r.top.res = 0x005A) :=
  ⟨⟨_, _, rfl, rfl, rfl⟩, ⟨_, _, rfl, rfl, by decide⟩, ⟨_, _, rfl, rfl, by decide⟩, ⟨_, _, rfl, rfl, by decide⟩,
    ⟨_, _, rfl, rfl, by decide⟩, ⟨_, _, rfl, rfl, by decide⟩⟩

/-- The four phases of RdwMicroSteps and WrwMicroSteps, and the two of WenMicroSteps and WdsMicroSteps. -/
theorem witness_phases :
    (zAt ⟨0, 0⟩).top.phase = ⟨0, 0⟩ ∧ (zAt ⟨0, 1⟩).top.phase = ⟨0, 1⟩ ∧ (zAt ⟨0, 2⟩).top.phase = ⟨0, 2⟩ ∧
    (zAt ⟨0, 3⟩).top.phase = ⟨0, 3⟩ := by decide

/-- With a delivery pending throughout. -/
theorem witness_RdwRunsAsOneBlock :
    let s := { p3a with choices := [.context] }
    s.top.phase = Phase.start ∧ s.top.op = some (.rdw 0x10 0x11) ∧ chooseMove s = some (.context, p3a) := by decide

/-- With both addresses the same, and with two addresses. -/
theorem witness_WrwRunsAsOneBlock :
    (zWord 0x4410ABCD).top.phase = Phase.start ∧ (zWord 0x4410ABCD).top.op = some (.wrw 0x10 0x10 0xABCD) ∧
    chooseMove (zWord 0x4410ABCD) = some (.context, zWord 0x4410ABCD) ∧
    (zWord 0x44111111).top.op = some (.wrw 0x10 0x11 0x1111) ∧
    chooseMove (zWord 0x44111111) = some (.context, zWord 0x44111111) ∧ (0x10 : Addr) ≠ 0x11 := by decide

/-- The invariant of a state whose parts are decided. -/
theorem inv_of {s : State} (h1 : s.cfg.wf = true) (h2 : s.deliveries.length = s.cfg.nirq)
    (h3 : ∀ h ∈ s.handlers, 1 ≤ h.source ∧ h.source ≤ s.cfg.nirq) (h4 : (s.handlers.map Handler.source).Nodup)
    (h5 : ∀ c ∈ s.stack, c.valid s.cfg = true) (h6 : s.top.inWordAccess s.cfg = true → s.ie = false)
    (h7 : ∀ c ∈ s.below, c.inWordAccess s.cfg = false) : s.Inv := ⟨h1, h2, h3, fun _ => h4, h5, h6, h7⟩

/-- Inside RDW, with a delivery pending. -/
def inRdw : State := { p3a with ie := false, main := { ctx [0x34110000] ⟨0, 2⟩ with sv := true } }

theorem witness_WordAccessAdmitsNoOtherMove : inRdw.Inv ∧ inRdw.top.inWordAccess inRdw.cfg = true :=
  ⟨inv_of (by decide) (by decide) (by decide) (by decide) (by decide) (by decide) (by decide), by decide⟩

/-- P3a, all premises: the pair holds 0x0200, the one other writer writes 0xBEEF whole. -/
theorem witness_NoTornRead :
    let W : Word → Prop := fun w => w = 0x0200 ∨ w = 0xBEEF
    (0x10 : Addr) ≠ 0x11 ∧ p3a.Inv ∧ p3a.top.inWordAccess p3a.cfg = false ∧ W (p3a.pair 0x10 0x11) ∧
    p3a.everyOp (keepsPairWhole p3a.cfg 0x10 0x11 W) ∧
    ∃ t u, Reaches p3a t ∧ t.top.op = some (.rdw 0x10 0x11) ∧ t.top.phase = ⟨0, 2⟩ ∧ applyMove .context t = .next u := by
  refine ⟨by decide, inv_of (by decide) (by decide) (by decide) (by decide) (by decide) (by decide) (by decide),
    by decide, .inl (by decide), ?_, ?_⟩
  · intro st hst cw hcw i hi
    have h : cw = 0x34110000 ∨ cw = 0x4411BEEF := by
      have : st ∈ [[0x34110000], [0x4411BEEF]] := hst
      simp only [List.mem_cons, List.not_mem_nil, or_false] at this
      rcases this with rfl | rfl <;> simp at hcw <;> simp [hcw]
    rcases h with rfl | rfl
    · have : decode 0x34110000 = .ok (.rdw 0x10 0x11) := by decide
      rw [this] at hi; cases hi; trivial
    · have : decode 0x4411BEEF = .ok (.wrw 0x10 0x11 0xBEEF) := by decide
      rw [this] at hi; cases hi
      exact .inl ⟨rfl, rfl, .inr rfl⟩
  · exact ⟨_, _, .move (.move .start ⟨.context, by decide, rfl⟩) ⟨.context, by decide, rfl⟩, by decide, by decide, rfl⟩

/-- The boundaries of the three regions. -/
theorem witness_RegionOfEveryAddress :
    (0x0F : Addr).toNat ≤ 0x0F ∧ 0x10 ≤ (0x10 : Addr).toNat ∧ (0x1F : Addr).toNat ≤ 0x1F ∧ 0x20 ≤ (0x20 : Addr).toNat ∧
    Config.reference.statedBounds ∧ Config.reference.regionsCover = true ∧
    [0x00, 0x0F, 0x10, 0x1F, 0x20, 0x3F].map (region Config.reference) =
      [.readOnly, .readOnly, .readWrite, .readWrite, .safeReadWrite, .safeReadWrite] := by decide

/-- Bounds that cover the addresses otherwise. -/
theorem witness_RegionOfEveryAddress_other_bounds :
    { Config.reference with roHi := 0x07, rwLo := 0x08 }.regionsCover = true := by decide

/-- V-AP-40's shape: after WDS a write at 0x20 changes nothing, after WEN it does; INIT then WEQ. -/
theorem witness_PolicyProperties :
    z.cfg.statedBounds ∧ (zAt ⟨0, 1⟩).top.phase = ⟨0, 1⟩ ∧ 0x20 ≤ (0x20 : Addr).toNat ∧
    (∃ t r, exec .wds (zAt ⟨0, 1⟩) = .next t ∧ exec (.bwr 0x20 0x55) t = .next r ∧ r.slot 0x20 = 0x00) ∧
    (∃ t r, exec .wen (zAt ⟨0, 1⟩) = .next t ∧ exec (.bwr 0x20 0x55) t = .next r ∧ r.slot 0x20 = 0x55) ∧
    (∃ t, exec (.bwr 0x0F 0x55) f = .next t ∧ t.slot 0x0F = 0xFF) ∧
    (∃ t, exec (.bwr 0x10 0x55) z = .next t ∧ t.slot 0x10 = 0x55) ∧
    (∃ t r, exec .init { f with ie := false } = .next t ∧ exec .weq t = .next r) :=
  ⟨by decide, by decide, by decide, ⟨_, _, rfl, rfl, by decide⟩, ⟨_, _, rfl, rfl, by decide⟩, ⟨_, rfl, by decide⟩,
    ⟨_, rfl, by decide⟩, ⟨_, _, rfl, rfl⟩⟩

/-- An operation that keeps the low flags byte, and one that writes it. -/
theorem witness_FlagsByteWriters :
    z.cfg.wf = true ∧ (∃ t, exec (.bwr 0x05 0x01) z = .next t ∧ t.slot 0x05 = 0x00) ∧
    (∃ t, exec (.wrb 0x05 0x01) z = .next t ∧ t.slot 0x05 = 0x01) :=
  ⟨by decide, ⟨_, rfl, by decide⟩, ⟨_, rfl, by decide⟩⟩

/-- MAIN holds a bus write of the low flags byte that would open the gate if it were raw, and a raw write of its reserved
bits; a CTL delivery holds LDEF. -/
def lockedRun : State :=
  { filled 0x00 true (ctx [0x51400001, 0x214000FE] Phase.start) with deliveries := [[], [[0xA0000000]]] }

theorem witness_LockedGateOpensOnlyByWen :
    lockedRun.Inv ∧ (∀ c ∈ lockedRun.stack, c.phase = Phase.start) ∧ lockedRun.gate = false ∧
    lockedRun.everyOp (cannotUnlock lockedRun.cfg) ∧ ∃ t, Reaches lockedRun t ∧ t.handlers ≠ [] := by
  refine ⟨inv_of (by decide) (by decide) (by decide) (by decide) (by decide) (by decide) (by decide), by decide,
    by decide, ?_, ?_⟩
  · intro st hst cw hcw i hi
    have h : cw = 0x51400001 ∨ cw = 0x214000FE ∨ cw = 0xA0000000 := by
      have : st ∈ [[0x51400001, 0x214000FE], [0xA0000000]] := hst
      simp only [List.mem_cons, List.not_mem_nil, or_false] at this
      rcases this with rfl | rfl
      · simp at hcw; rcases hcw with h | h <;> simp [h]
      · simp at hcw; simp [hcw]
    rcases h with rfl | rfl | rfl
    · have : decode 0x51400001 = .ok (.bwr 0x05 0x01) := by decide
      rw [this] at hi; cases hi; trivial
    · have : decode 0x214000FE = .ok (.wrb 0x05 0xFE) := by decide
      rw [this] at hi; cases hi
      intro _; decide
    · have : decode 0xA0000000 = .ok .ldef := by decide
      rw [this] at hi; cases hi; trivial
  · exact ⟨_, .move .start ⟨.deliver 2, by decide, rfl⟩, by decide⟩

/-- IE = 1, and IE = 0 between operations. -/
theorem witness_InitZeroesTheBank : z.ie = true ∧ { z with ie := false }.ie = false ∧ z.top.phase = Phase.start := by decide

/-- An entry of each kind of DEFAULTS_REF at each of its micro-steps, and the empty list. -/
theorem witness_LdefMicroSteps :
    Config.reference.defaults[0]? = some (.word 0x10 0x11 0x0200) ∧ Config.reference.defaults[1]? = some (.bits 0x05 0x02 0x02) ∧
    Config.reference.defaults[2]? = some (.byte 0x20 0x10) ∧
    (zAt ⟨0, 0⟩).top.phase = ⟨0, 0⟩ ∧ (zAt ⟨0, 1⟩).top.phase = ⟨0, 1⟩ ∧ (zAt ⟨0, 2⟩).top.phase = ⟨0, 2⟩ ∧
    (zAt ⟨0, 3⟩).top.phase = ⟨0, 3⟩ ∧ (zAt ⟨1, 0⟩).top.phase = ⟨1, 0⟩ ∧ (zAt ⟨1, 1⟩).top.phase = ⟨1, 1⟩ ∧
    (zAt ⟨2, 0⟩).top.phase = ⟨2, 0⟩ ∧
    { z with cfg := { Config.reference with defaults := [] } }.cfg.defaults = [] := by decide

/-- The flags bit 1 of DEFAULTS_REF, covered by its one Bits entry, with no later entry that covers it; and each half of
its Word entry. -/
theorem witness_CoverAndValueOfDefaults :
    Config.defaultsRef = [.word 0x10 0x11 0x0200] ++ .bits 0x05 0x02 0x02 :: [.byte 0x20 0x10] ∧
    (0x02 : Byte).getLsbD 1 = true ∧ cover Config.defaultsRef 0x05 = 0x02 ∧ dval Config.defaultsRef 0x05 = 0x02 ∧
    (cover Config.defaultsRef 0x10, dval Config.defaultsRef 0x10) = (0xFF, 0x02) ∧
    (cover Config.defaultsRef 0x11, dval Config.defaultsRef 0x11) = (0xFF, 0x00) ∧
    (cover Config.defaultsRef 0x20, dval Config.defaultsRef 0x20) = (0xFF, 0x10) := by decide

/-- From the two banks Z and F, and twice. -/
theorem witness_LdefIsDeterministic :
    z.cfg = f.cfg ∧ z.top.phase = Phase.start ∧ f.top.phase = Phase.start ∧ Config.reference.wf = true ∧
    (∃ t, unpreempted (ldefSteps z.cfg.defaults) .ldef z = .next t) ∧
    ∃ t u, unpreempted (ldefSteps f.cfg.defaults) .ldef f = .next t ∧
      unpreempted (ldefSteps f.cfg.defaults) .ldef t = .next u :=
  ⟨rfl, rfl, rfl, by decide, ⟨_, rfl⟩, ⟨_, _, rfl, rfl⟩⟩

theorem witness_LdefKeepsTheGate :
    f.cfg.wf = true ∧ f.top.phase = Phase.start ∧ f.gate = true ∧
    ∃ t, unpreempted (ldefSteps f.cfg.defaults) .ldef f = .next t := ⟨by decide, rfl, by decide, _, rfl⟩

/-- OperationsTouchOnlyTheRunningContext: a micro-step inside an operation, and one that ends it. -/
theorem witness_OperationsTouchOnlyTheRunningContext :
    (∃ t, exec .wen z = .next t ∧ t.top.cpc = 0) ∧ ∃ t, exec .wen (zAt ⟨0, 1⟩) = .next t ∧ t.top.cpc = 1 :=
  ⟨⟨_, rfl, by decide⟩, _, rfl, by decide⟩

theorem witness_OperationsWriteOnlyTheirSlots :
    (∃ t, exec (.wrw 0x10 0x11 0x1234) (zAt ⟨0, 1⟩) = .next t) ∧ (0x12 : Addr) ∉ writtenSlots z.cfg (.wrw 0x10 0x11 0x1234) :=
  ⟨⟨_, rfl⟩, by decide⟩

/-- Two banks that agree on the low flags byte, the one slot a bus write of 0x20 reads. -/
theorem witness_OperationsReadOnlyTheirSlots :
    let s' := z.writeSlot 0x20 0x77
    s' = { z with bank := s'.bank } ∧ (∀ a ∈ readSlots z.cfg (.bwr 0x20 0x55), s'.slot a = z.slot a) ∧
    ∃ t, exec (.bwr 0x20 0x55) z = .next t := ⟨rfl, by decide, _, rfl⟩

theorem witness_OnlyMaskingOperationsUseIe : ∃ t, exec (.bwr 0x10 0x55) z = .next t := ⟨_, rfl⟩

/-- Each of the three registers does change somewhere. -/
theorem witness_MicroStateWriters :
    (∃ t, exec .weq f = .next t ∧ t.top.res ≠ f.top.res) ∧ (∃ t, exec (.rdw 0 1) z = .next t ∧ t.top.sv ≠ z.top.sv) ∧
    ∃ t, exec .wen f = .next t ∧ t.top.t ≠ f.top.t :=
  ⟨⟨_, rfl, by decide⟩, ⟨_, rfl, by decide⟩, _, rfl, by decide⟩

/-- A legal phase, and one that is no row. -/
theorem witness_ExecAnswersByPhase :
    legalPhase z.cfg .ldef ⟨1, 1⟩ = true ∧ legalPhase z.cfg .ldef ⟨1, 2⟩ = false ∧ legalPhase z.cfg .wen ⟨0, 1⟩ = true ∧
    legalPhase z.cfg .wen ⟨0, 2⟩ = false ∧ z.ie = true := by decide

theorem witness_WholeOperationsComplete :
    z.top.phase = Phase.start ∧ { z with ie := false }.ie = false ∧ { z with ie := false }.top.phase = Phase.start := by decide

/-- The last delivery of the last source. -/
theorem witness_DeliveryOfAnInterrupt : Move.deliver 2 ∈ p3a.moves ∧ p3a.deliveries.getD (2 - 1) [] = [0x4411BEEF] :: [] ∧
    1 ≤ 2 := by decide

theorem witness_ReturnFromAHandler :
    let s := { z with ie := false, handlers := [⟨2, ctx [] Phase.start⟩] }
    Move.handlerReturn ∈ s.moves ∧ s.handlers ≠ [] := by decide

/-- P8: CTL nested in BUS, as deep as the stack gets. -/
def nested : State :=
  { z with ie := false, handlers := [⟨2, ctx [0x4411BEEF] ⟨0, 0⟩⟩, ⟨1, ctx [0xB0000000, 0x34110000] Phase.start⟩] }

theorem witness_StackDepthIsBounded :
    nested.Inv ∧ nested.cfg.sameSourceReentry = false ∧ nested.stack.length = 1 + nested.cfg.nirq :=
  ⟨inv_of (by decide) (by decide) (by decide) (by decide) (by decide) (by decide) (by decide), by decide, by decide⟩

theorem witness_NoContextIsStuckInsideAnOperation : inRdw.Inv ∧ inRdw.top.phase ≠ Phase.start :=
  ⟨witness_WordAccessAdmitsNoOtherMove.1, by decide⟩

/-- P6 meets the premises of the first clause and of the second, Z those of the third. -/
theorem witness_StuckStatesAreTheTwo :
    p6.Inv ∧ z.Inv ∧ (∀ t, ¬ Moves p6 t) ∧ p6.final = false ∧ p6.handlers = [] ∧
    p6.main.finished = true ∧ p6.ie = false ∧ (∃ l ∈ p6.deliveries, l ≠ []) ∧ z.final = true := by
  refine ⟨inv_of (by decide) (by decide) (by decide) (by decide) (by decide) (by decide) (by decide),
    inv_of (by decide) (by decide) (by decide) (by decide) (by decide) (by decide) (by decide), ?_, by decide,
    by decide, by decide, by decide, by decide, by decide⟩
  rintro t ⟨m, hm, -⟩
  have h : p6.moves = [] := by decide
  simp [h] at hm

/-- The invariant holds of the constant sequence on Z, and a run does take steps. -/
theorem witness_EveryRunIsFinite : ((fun _ : Nat => z) 0).Inv ∧ ∃ t, Moves p3a t :=
  ⟨witness_StuckStatesAreTheTwo.2.1, _, .context, by decide, rfl⟩

theorem witness_PowerOnInvariant :
    let l : Launch := ⟨Config.reference, [0x90000000], [[[0x70000000]], []], z.bank⟩
    l.cfg.wf = true ∧ l.deliveries.length = l.cfg.nirq := by decide

theorem witness_StepKeepsTheInvariant : inRdw.Inv ∧ ∃ t, step inRdw = .next t :=
  ⟨witness_WordAccessAdmitsNoOtherMove.1, _, rfl⟩

/-- Each of the three moves, and a run. -/
theorem witness_StreamsNeverChange :
    (∃ t, Moves p3a t ∧ t.handlers = []) ∧ (∃ t, Moves p3a t ∧ t.handlers ≠ []) ∧
    (∃ t, Moves { z with ie := false, handlers := [⟨2, ctx [] Phase.start⟩] } t ∧ t.handlers = []) ∧
    inRdw.Inv ∧ ∃ t, Reaches inRdw t ∧ t.top.phase = ⟨0, 3⟩ :=
  ⟨⟨_, ⟨.context, by decide, rfl⟩, by decide⟩, ⟨_, ⟨.deliver 2, by decide, rfl⟩, by decide⟩,
    ⟨_, ⟨.handlerReturn, by decide, rfl⟩, by decide⟩, witness_WordAccessAdmitsNoOtherMove.1, _, .move .start ⟨.context, by decide, rfl⟩, by decide⟩

/-- A boot with a raw write before INIT, run up to INIT, with a delivery pending. -/
theorem witness_BootRunsMaskedUntilInit :
    let l : Launch := ⟨Config.reference, [0x20000000, 0x90000000, 0xB0000000], [[[0x70000000]], []], f.bank⟩
    bootConforms l.cfg l.main = true ∧ ∃ t, Reaches l.initial t ∧ t.main.cpc = initIndex l.main :=
  ⟨by decide, _, .move .start ⟨.context, by decide, rfl⟩, by decide⟩

end Sys2Proof.Tests
end

/-! ## Scope (00_scope.md): the regions, what exec answers by phase, whole operations, no context stuck inside one -/

namespace Sys2Proof.Machine

/-! ### Regions (rule R52) -/

/-- Bit 5 of an address splits the bank in halves. -/
theorem addr_bit5_iff (a : Addr) : a.getLsbD 5 = true ↔ 0x20 ≤ a.toNat := by revert a; decide

/-- In the lower half bit 4 does. -/
theorem addr_bit4_iff (a : Addr) (h : a.toNat < 0x20) : a.getLsbD 4 = true ↔ 0x10 ≤ a.toNat := by revert a; decide

/-- The region by bits 5 and 4 of the address, at the bounds the source fixes. -/
theorem region_eq_bits {c : Config} (h : c.statedBounds) (a : Addr) :
    region c a =
      if a.getLsbD 5 then .safeReadWrite else if a.getLsbD 4 then .readWrite else .readOnly := by
  rw [region_eq h]
  by_cases h5 : 0x20 ≤ a.toNat
  · rw [if_pos ((addr_bit5_iff a).2 h5), if_neg (by omega), if_neg (by omega)]
  · rw [if_neg (mt (addr_bit5_iff a).1 h5)]
    by_cases h4 : 0x10 ≤ a.toNat
    · rw [if_pos ((addr_bit4_iff a (by omega)).2 h4), if_neg (by omega), if_pos (by omega)]
    · rw [if_neg (mt (addr_bit4_iff a (by omega)).1 h4), if_pos (by omega)]

/-- At bounds that cover the addresses with no overlap, each region is exactly its range. -/
theorem region_eq_iff_range {c : Config} (h : c.regionsCover = true) (a : Addr) :
    (region c a = .readOnly ↔ c.roLo.toNat ≤ a.toNat ∧ a.toNat ≤ c.roHi.toNat) ∧
    (region c a = .readWrite ↔ c.rwLo.toNat ≤ a.toNat ∧ a.toNat ≤ c.rwHi.toNat) ∧
    (region c a = .safeReadWrite ↔ c.srwLo.toNat ≤ a.toNat ∧ a.toNat ≤ c.srwHi.toNat) := by
  simp only [Config.regionsCover, decide_eq_true_eq, Config.addrMax_eq, BitVec.le_def] at h
  obtain ⟨hro, hrw, hsrw, hmax, hro', hrw', hsrw'⟩ := h
  have ha := a.isLt
  simp only [region, BitVec.le_def]
  split
  · simp only [reduceCtorEq, false_iff, true_iff]; omega
  · split
    · simp only [reduceCtorEq, false_iff, true_iff]; omega
    · simp only [reduceCtorEq, false_iff, true_iff]; omega

/-- Settles O19, from the region by ranges, by bits and at any bounds that cover the addresses. -/
theorem regionOfEveryAddress : Obligations.RegionOfEveryAddress := by
  intro c a
  refine ⟨fun h => ⟨?_, ?_, ?_, ?_, ?_, ?_⟩, fun h => region_eq_iff_range h a⟩
  · intro ha; rw [region_eq h, if_pos ha]
  · intro ha; rw [region_eq h, if_neg (by omega), if_pos ha.2]
  · intro ha; rw [region_eq h, if_neg (by omega), if_neg (by omega)]
  · intro h5; rw [region_eq_bits h, if_pos h5]
  · intro h5 h4; simp only [region_eq_bits h, h5, h4, Bool.false_eq_true, if_false, if_true]
  · intro h5 h4; simp only [region_eq_bits h, h5, h4, Bool.false_eq_true, if_false]

/-! ### The rows of a phase table, for every operation at once

For LDEF the table is the one of the entry in the first part of the phase; the empty DEFAULTS is one row that does nothing
(43_lifecycle.md rule R161). Every other operation has its table at entry 0. -/

/-- The rows of the operation's phase table whose phases have the given first part. -/
def phaseRows (c : Config) (i : Instr) (n : Nat) : List (State → State) :=
  if i = .ldef then
    match c.defaults[n]? with
    | some e => entryRows e
    | none => if c.defaults = [] ∧ n = 0 then [id] else []
  else if n = 0 then tableOf c i else []

/-- The phase after a micro-step; none is the end of the operation. -/
def nextPhase (c : Config) (i : Instr) (p : Phase) : Option Phase :=
  if p.sub + 1 < (phaseRows c i p.entry).length then some ⟨p.entry, p.sub + 1⟩
  else if i = .ldef ∧ p.entry + 1 < c.defaults.length then some ⟨p.entry + 1, 0⟩
  else none

section
variable {c : Config} {i : Instr} {n : Nat} {p q : Phase} {s t : State} {row : State → State}

@[simp] theorem phaseRows_table (h : i ≠ .ldef) : phaseRows c i 0 = tableOf c i := by simp [phaseRows, h]

@[simp] theorem phaseRows_noTable (h : i ≠ .ldef) (hn : n ≠ 0) : phaseRows c i n = [] := by simp [phaseRows, h, hn]

theorem phaseRows_entry {e : DefaultEntry} (h : c.defaults[n]? = some e) : phaseRows c .ldef n = entryRows e := by
  simp [phaseRows, h]

theorem phaseRows_noEntry (h : c.defaults[n]? = none) :
    phaseRows c .ldef n = if c.defaults = [] ∧ n = 0 then [id] else [] := by
  simp [phaseRows, h]

/-- A phase is legal exactly where the table has a row for it. -/
theorem legalPhase_iff : legalPhase c i p = true ↔ p.sub < (phaseRows c i p.entry).length := by
  obtain ⟨n, k⟩ := p
  by_cases hl : i = .ldef
  · subst hl
    cases he : c.defaults[n]? with
    | some e => simp [legalPhase, ldefPhase, he, phaseRows_entry he]
    | none =>
      rw [phaseRows_noEntry he]
      by_cases hn : c.defaults = [] ∧ n = 0
      · simp [legalPhase, ldefPhase, hn, Phase.start]
      · have hs : ¬(c.defaults = [] ∧ (⟨n, k⟩ : Phase) = Phase.start) := fun h => hn ⟨h.1, congrArg Phase.entry h.2⟩
        simp [legalPhase, ldefPhase, he, hn, hs]
  · by_cases hn : n = 0
    · subst hn; simp [legalPhase, hl, tableOf_length hl]
    · simp [legalPhase, hl, hn]

/-- At a row of its table an operation answers the row's effect and the next phase. -/
theorem exec_at_row (hi : i = .init → s.ie = false)
    (hr : (phaseRows s.cfg i s.top.phase.entry)[s.top.phase.sub]? = some row) :
    exec i s = .next (advance (nextPhase s.cfg i s.top.phase) (row s)) := by
  rcases hp : s.top.phase with ⟨n, k⟩
  rw [hp] at hr
  by_cases hl : i = .ldef
  · subst hl
    rw [exec_ldef]
    cases he : s.cfg.defaults[n]? with
    | some e =>
      rw [phaseRows_entry he] at hr
      rw [runDefaults_at (by rw [hp]; exact he) (by rw [hp]; exact hr)]
      simp [nextPhase, ldefNext, hp, phaseRows_entry he]
    | none =>
      rw [phaseRows_noEntry he] at hr
      split at hr
      · next hn =>
        obtain ⟨hd, rfl⟩ := hn
        obtain ⟨rfl, rfl⟩ : k = 0 ∧ id = row := by simpa [List.getElem?_singleton] using hr
        rw [runDefaults_nil hd hp]
        simp [nextPhase, phaseRows_noEntry he, hd, advance]
      · cases hr
  · obtain rfl : n = 0 := by
      by_contra hn
      simp [phaseRows_noTable hl hn] at hr
    rw [phaseRows_table hl] at hr
    rw [exec_at hl hi hp hr]
    simp [nextPhase, hl, tableOf_length hl]

/-- Off its table an operation has no micro-step. -/
theorem exec_off_rows (hi : i = .init → s.ie = false) (h : legalPhase s.cfg i s.top.phase = false) :
    exec i s = .fault .noSuchMicroStep := by
  have hr : (phaseRows s.cfg i s.top.phase.entry)[s.top.phase.sub]? = none := by
    rw [List.getElem?_eq_none_iff, ← Nat.not_lt, ← legalPhase_iff, h]
    exact Bool.false_ne_true
  rcases hp : s.top.phase with ⟨n, k⟩
  rw [hp] at hr
  by_cases hl : i = .ldef
  · subst hl
    rw [exec_ldef]
    cases he : s.cfg.defaults[n]? with
    | some e =>
      have hne : s.cfg.defaults ≠ [] := by rintro hd; simp [hd] at he
      rw [phaseRows_entry he] at hr
      simp [runDefaults, hne, hp, he, hr]
    | none =>
      rw [phaseRows_noEntry he] at hr
      have hne : ¬(s.cfg.defaults = [] ∧ s.top.phase = Phase.start) := by
        rintro ⟨hd, hs⟩
        rw [hp] at hs
        cases hs
        simp [hd] at hr
      have he' : s.cfg.defaults[s.top.phase.entry]? = none := by rw [hp]; exact he
      simp only [runDefaults, if_neg hne, he']
  · rw [exec_eq_runRow hl hi]
    by_cases hn : n = 0
    · subst hn
      rw [phaseRows_table hl] at hr
      simp [runRow, hp, hr]
    · simp [runRow, hp, hn]

/-- At a legal phase an operation runs the row that stands there. -/
theorem exec_legal (hi : i = .init → s.ie = false) (h : legalPhase s.cfg i s.top.phase = true) :
    ∃ row, (phaseRows s.cfg i s.top.phase.entry)[s.top.phase.sub]? = some row ∧
      exec i s = .next (advance (nextPhase s.cfg i s.top.phase) (row s)) :=
  ⟨_, List.getElem?_eq_getElem (legalPhase_iff.1 h), exec_at_row hi (List.getElem?_eq_getElem (legalPhase_iff.1 h))⟩

end

/-- Settles O41, from what exec answers at a row of its table and off it. -/
theorem execAnswersByPhase : Obligations.ExecAnswersByPhase := by
  intro i s
  refine ⟨?_, fun hi => ⟨fun hp => ?_, exec_off_rows hi⟩⟩
  · rintro rfl hie
    exact exec_init_masked hie
  · obtain ⟨row, -, he⟩ := exec_legal hi hp
    exact ⟨_, he⟩

/-! ### No context is stuck inside an operation (60_exceptions.md rule R200) -/

/-- INIT has one micro-step, so a context is never inside it. -/
theorem ne_init_of_inside {c : Config} {i : Instr} {p : Phase} (h : legalPhase c i p = true) (hp : p ≠ Phase.start) :
    i ≠ .init := by
  rintro rfl
  obtain ⟨n, k⟩ := p
  simp [legalPhase, opSteps] at h
  exact hp (by rw [h.1, h.2]; rfl)

/-- Settles O46: a valid context inside an operation stands at a row of its table, and it is not inside INIT. -/
theorem noContextIsStuckInsideAnOperation : Obligations.NoContextIsStuckInsideAnOperation := by
  intro s hs hp
  obtain ⟨i, hop, hlegal⟩ := Context.op_of_valid (hs.valid _ s.top_mem_stack) hp
  obtain ⟨row, -, he⟩ := exec_legal (fun h => absurd h (ne_init_of_inside hlegal hp)) hlegal
  exact ⟨mem_moves_context.2 ⟨.inl hp, topRefused_inside hp⟩, _, (contextStep_op hop).trans he⟩

/-! ### What a row leaves alone -/

section
variable {c : Config} {i : Instr} {n : Nat} {p q : Phase} {s t : State} {row : State → State}

/-- A row of any phase table is a row of tableOf, one of an entry of DEFAULTS, or the row of the empty list. -/
theorem mem_phaseRows (h : row ∈ phaseRows c i n) :
    row ∈ tableOf c i ∨ (∃ e, row ∈ entryRows e) ∨ row = id := by
  unfold phaseRows at h
  split at h
  · split at h
    · next e _ => exact .inr (.inl ⟨e, h⟩)
    · split at h
      · exact .inr (.inr (List.mem_singleton.1 h))
      · cases h
  · split at h
    · exact .inl h
    · cases h

theorem phaseRows_sameOutside (h : row ∈ phaseRows c i n) (s : State) : SameOutside s (row s) := by
  rcases mem_phaseRows h with h | ⟨e, h⟩ | rfl
  · exact tableOf_sameOutside h s
  · exact entryRows_sameOutside h s
  · exact SameOutside.refl s

theorem phaseRows_cpc (h : row ∈ phaseRows c i n) (s : State) : (row s).top.cpc = s.top.cpc := by
  rcases mem_phaseRows h with h | ⟨e, h⟩ | rfl
  · exact tableOf_cpc h s
  · exact entryRows_cpc h s
  · rfl

/-! ### The interrupt-enable state an operation gives back (41_atomic_word.md rules R122, R125) -/

/-- The row leaves IE and the saved IE alone. -/
def KeepsMask (row : State → State) : Prop := ∀ s, (row s).ie = s.ie ∧ (row s).top.sv = s.top.sv

/-- The rows are a word access: two rows between saving and clearing IE and restoring it. -/
def MaskedRows (rows : List (State → State)) : Prop :=
  ∃ r₁ r₂, rows = [maskInterrupts, r₁, r₂, restoreInterrupts] ∧ KeepsMask r₁ ∧ KeepsMask r₂

/-- What IE is, or inside a word access will be again. -/
def heldIe (i : Instr) (s : State) : Bool := if insideWordAccess s.cfg i s.top.phase then s.top.sv else s.ie

theorem keepsMask_writeSlot (a : Addr) (f : State → Byte) : KeepsMask (fun s => s.writeSlot a (f s)) := fun _ => ⟨rfl, rfl⟩

theorem maskedRows_wordWriteRows (ah al : Addr) (w : Word) : MaskedRows (wordWriteRows ah al w) :=
  ⟨_, _, rfl, keepsMask_writeSlot ah _, keepsMask_writeSlot al _⟩

theorem maskedRows_rdw (ah al : Addr) : MaskedRows (tableOf c (.rdw ah al)) :=
  ⟨_, _, rfl, fun s => by simp, fun s => by simp⟩

/-- A row of an operation that is no word access leaves IE alone (but for IEN and IDS). -/
theorem tableOf_ie (h : row ∈ tableOf c i) (hr : ∀ ah al, i ≠ .rdw ah al) (hw : ∀ ah al w, i ≠ .wrw ah al w)
    (hn : i ≠ .ien) (hs : i ≠ .ids) (s : State) : (row s).ie = s.ie := by
  cases i with
  | rdb a => obtain rfl := List.mem_singleton.1 h; simp
  | wrb a v => obtain rfl := List.mem_singleton.1 h; simp
  | rdw ah al => exact absurd rfl (hr ah al)
  | wrw ah al w => exact absurd rfl (hw ah al w)
  | bwr a v => obtain rfl := List.mem_singleton.1 h; dsimp only; split <;> rfl
  | weq => obtain rfl := List.mem_singleton.1 h; simp
  | wen => obtain rfl | rfl := List.mem_pair.1 h <;> simp
  | wds => obtain rfl | rfl := List.mem_pair.1 h <;> simp
  | init => obtain rfl := List.mem_singleton.1 h; simp
  | ldef => cases h
  | ien => exact absurd rfl hn
  | ids => exact absurd rfl hs

/-- So does a row of an entry of DEFAULTS that is no word. -/
theorem entryRows_ie {e : DefaultEntry} (h : row ∈ entryRows e) (hw : ∀ ah al w, e ≠ .word ah al w) (s : State) :
    (row s).ie = s.ie := by
  cases e with
  | byte a v => obtain rfl := List.mem_singleton.1 h; simp
  | word ah al w => exact absurd rfl (hw ah al w)
  | bits a m v => obtain rfl | rfl := List.mem_pair.1 h <;> simp

/-- Only an RDW, a WRW or an LDEF is ever in a word access. -/
theorem insideWordAccess_of_not_word (hr : ∀ ah al, i ≠ .rdw ah al) (hw : ∀ ah al w, i ≠ .wrw ah al w) (hl : i ≠ .ldef) :
    insideWordAccess c i p = false := by
  cases i with
  | rdw ah al => exact absurd rfl (hr ah al)
  | wrw ah al w => exact absurd rfl (hw ah al w)
  | ldef => exact absurd rfl hl
  | _ => simp [insideWordAccess]

/-- And only an LDEF where the first part of the phase is not 0. -/
theorem insideWordAccess_noTable {k : Nat} (hl : i ≠ .ldef) (hn : n ≠ 0) : insideWordAccess c i ⟨n, k⟩ = false := by
  cases i with
  | ldef => exact absurd rfl hl
  | _ => simp [insideWordAccess, hn]

/-- The rows of a table with one first part of the phase are a word access, or leave IE alone (but for IEN and IDS). -/
theorem phaseRows_masked_or_keep (c : Config) (n : Nat) (hn : i ≠ .ien) (hs : i ≠ .ids) :
    (MaskedRows (phaseRows c i n) ∧ ∀ k, insideWordAccess c i ⟨n, k⟩ = decide (1 ≤ k ∧ k ≤ 3)) ∨
    ((∀ row ∈ phaseRows c i n, ∀ s, (row s).ie = s.ie) ∧ ∀ k, insideWordAccess c i ⟨n, k⟩ = false) := by
  by_cases hl : i = .ldef
  · subst hl
    cases he : c.defaults[n]? with
    | none =>
      refine .inr ⟨fun row h s => ?_, fun k => by simp [insideWordAccess, he]⟩
      rw [phaseRows_noEntry he] at h
      split at h
      · obtain rfl := List.mem_singleton.1 h; rfl
      · cases h
    | some e =>
      rw [phaseRows_entry he]
      cases e with
      | word ah al w => exact .inl ⟨maskedRows_wordWriteRows ah al w, fun k => by simp [insideWordAccess, he]⟩
      | byte a v => exact .inr ⟨fun row h => entryRows_ie h (by simp), fun k => by simp [insideWordAccess, he]⟩
      | bits a m v => exact .inr ⟨fun row h => entryRows_ie h (by simp), fun k => by simp [insideWordAccess, he]⟩
  · by_cases h0 : n = 0
    · subst h0
      rw [phaseRows_table hl]
      by_cases hr : ∃ ah al, i = .rdw ah al
      · obtain ⟨ah, al, rfl⟩ := hr
        exact .inl ⟨maskedRows_rdw ah al, fun k => by simp [insideWordAccess]⟩
      by_cases hw : ∃ ah al w, i = .wrw ah al w
      · obtain ⟨ah, al, w, rfl⟩ := hw
        exact .inl ⟨maskedRows_wordWriteRows ah al w, fun k => by simp [insideWordAccess]⟩
      push Not at hr hw
      exact .inr ⟨fun row h => tableOf_ie h hr hw hn hs, fun k => insideWordAccess_of_not_word hr hw hl⟩
    · rw [phaseRows_noTable hl h0]
      exact .inr ⟨by simp, fun k => insideWordAccess_noTable hl h0⟩

/-- A row hands the held IE on to the phase after it, whether a row stands there or not. -/
theorem phaseRows_heldIe (hn : i ≠ .ien) (hs : i ≠ .ids) (h : (phaseRows c i p.entry)[p.sub]? = some row) (s : State) :
    (if insideWordAccess c i ⟨p.entry, p.sub + 1⟩ then (row s).top.sv else (row s).ie) =
      if insideWordAccess c i p then s.top.sv else s.ie := by
  obtain ⟨n, k⟩ := p
  rcases phaseRows_masked_or_keep c n hn hs with ⟨⟨r₁, r₂, hrows, h₁, h₂⟩, hin⟩ | ⟨hkeep, hin⟩
  · rw [hrows] at h
    rw [hin, hin]
    match k, h with
    | 0, h => cases h; simp
    | 1, h => cases h; simp [h₁ s]
    | 2, h => cases h; simp [h₂ s]
    | 3, h => cases h; simp
  · rw [hin, hin]
    exact hkeep row (List.mem_of_getElem? h) s

/-- The start of an entry is in no word access. -/
theorem insideWordAccess_sub_zero : insideWordAccess c i ⟨n, 0⟩ = false := by simp [insideWordAccess]

/-- Nor is a phase after the last row of an entry. -/
theorem insideWordAccess_after (hn : i ≠ .ien) (hs : i ≠ .ids) (h : (phaseRows c i p.entry).length ≤ p.sub) :
    insideWordAccess c i p = false := by
  obtain ⟨n, k⟩ := p
  rcases phaseRows_masked_or_keep c n hn hs with ⟨⟨r₁, r₂, hrows, -, -⟩, hin⟩ | ⟨-, hin⟩
  · rw [hrows] at h
    rw [hin, decide_eq_false_iff_not]
    exact fun hk => absurd (Nat.le_trans h hk.2) (by simp)
  · exact hin k

/-! ### Counting micro-steps (70_reset_and_hazards.md rule R236) -/

/-- The number of micro-steps from a phase to the end of the operation. -/
def stepsLeft (c : Config) (i : Instr) (p : Phase) : Nat :=
  (phaseRows c i p.entry).length - p.sub +
    if i = .ldef then ((c.defaults.drop (p.entry + 1)).map entrySteps).sum else 0

/-- From the start the whole operation is left. -/
theorem stepsLeft_start (c : Config) (i : Instr) : stepsLeft c i Phase.start = opSteps c i := by
  by_cases hl : i = .ldef
  · subst hl
    cases hd : c.defaults with
    | nil => simp [stepsLeft, phaseRows, opSteps, ldefSteps, Phase.start, hd]
    | cons e es => simp [stepsLeft, phaseRows, opSteps, ldefSteps, Phase.start, hd]
  · simp [stepsLeft, Phase.start, hl, tableOf_length hl]

/-- The next phase is the next row's of the same entry, or the first of the next entry of DEFAULTS. -/
theorem nextPhase_some (h : nextPhase c i p = some q) :
    (p.sub + 1 < (phaseRows c i p.entry).length ∧ q = ⟨p.entry, p.sub + 1⟩) ∨
    ((phaseRows c i p.entry).length ≤ p.sub + 1 ∧ i = .ldef ∧ q = ⟨p.entry + 1, 0⟩ ∧
      ∃ e, c.defaults[p.entry + 1]? = some e) := by
  unfold nextPhase at h
  split at h
  · next hk => exact .inl ⟨hk, (Option.some.inj h).symm⟩
  · next hk =>
    split at h
    · next hl => exact .inr ⟨by omega, hl.1, (Option.some.inj h).symm, _, List.getElem?_eq_getElem hl.2⟩
    · cases h

/-- An operation ends at the last row, of the last entry of DEFAULTS for LDEF. -/
theorem nextPhase_none (h : nextPhase c i p = none) :
    (phaseRows c i p.entry).length ≤ p.sub + 1 ∧ (i = .ldef → c.defaults.length ≤ p.entry + 1) := by
  unfold nextPhase at h
  split at h
  · cases h
  · next hk =>
    split at h
    · cases h
    · next hl => exact ⟨by omega, fun hi => by simpa [hi] using hl⟩

/-- The phase after a micro-step is a row of the table. -/
theorem legalPhase_nextPhase (h : nextPhase c i p = some q) : legalPhase c i q = true := by
  rw [legalPhase_iff]
  rcases nextPhase_some h with ⟨hk, rfl⟩ | ⟨-, rfl, rfl, e, he⟩
  · exact hk
  · simp [phaseRows_entry he, entrySteps_pos]

/-- A micro-step that does not end the operation leaves one less. -/
theorem stepsLeft_nextPhase (hp : legalPhase c i p = true) (h : nextPhase c i p = some q) :
    stepsLeft c i p = stepsLeft c i q + 1 := by
  rw [legalPhase_iff] at hp
  rcases nextPhase_some h with ⟨hk, rfl⟩ | ⟨hk, rfl, rfl, e, he⟩
  · simp only [stepsLeft]; omega
  · have hd : c.defaults.drop (p.entry + 1) = e :: c.defaults.drop (p.entry + 1 + 1) := by
      obtain ⟨hlt, rfl⟩ := List.getElem?_eq_some_iff.1 he
      exact List.drop_eq_getElem_cons hlt
    simp only [stepsLeft, if_true, hd, phaseRows_entry he, entryRows_length, List.map_cons, List.sum_cons]
    omega

/-- The micro-step that ends the operation is the only one left. -/
theorem stepsLeft_last (hp : legalPhase c i p = true) (h : nextPhase c i p = none) : stepsLeft c i p = 1 := by
  rw [legalPhase_iff] at hp
  obtain ⟨hk, hl⟩ := nextPhase_none h
  by_cases hi : i = .ldef
  · simp only [stepsLeft, if_pos hi, List.drop_eq_nil_of_le (hl hi), List.map_nil, List.sum_nil]; omega
  · simp only [stepsLeft, if_neg hi]; omega

/-! ### One micro-step, and the whole operation (rules R14, R27, R28) -/

@[simp] theorem advance_phase (o : Option Phase) (s : State) : (advance o s).top.phase = o.getD Phase.start := by
  cases o <;> simp [advance]

@[simp] theorem advance_cpc (o : Option Phase) (s : State) :
    (advance o s).top.cpc = if o = none then s.top.cpc + 1 else s.top.cpc := by
  cases o <;> simp [advance]

/-- The next phase is in a word access exactly where the row after this one is. -/
theorem insideWordAccess_nextPhase (hn : i ≠ .ien) (hs : i ≠ .ids) :
    insideWordAccess c i ((nextPhase c i p).getD Phase.start) = insideWordAccess c i ⟨p.entry, p.sub + 1⟩ := by
  cases h : nextPhase c i p with
  | none =>
    exact insideWordAccess_sub_zero.trans
      (insideWordAccess_after (p := ⟨p.entry, p.sub + 1⟩) hn hs (nextPhase_none h).1).symm
  | some q =>
    rcases nextPhase_some h with ⟨-, rfl⟩ | ⟨hk, -, rfl, -⟩
    · rfl
    · exact insideWordAccess_sub_zero.trans (insideWordAccess_after (p := ⟨p.entry, p.sub + 1⟩) hn hs hk).symm

/-- Between operations the held IE is IE itself. -/
theorem heldIe_start (h : s.top.phase = Phase.start) : heldIe i s = s.ie := by
  rw [heldIe, h, Phase.start, insideWordAccess_sub_zero]; rfl

/-- INIT is no word access. -/
theorem heldIe_init : heldIe .init s = s.ie := by simp [heldIe, insideWordAccess]

/-- A micro-step keeps the held IE (but for IEN and IDS): what rules R122 and R125 come to. -/
theorem heldIe_advance_row (hn : i ≠ .ien) (hs : i ≠ .ids)
    (hr : (phaseRows s.cfg i s.top.phase.entry)[s.top.phase.sub]? = some row) :
    heldIe i (advance (nextPhase s.cfg i s.top.phase) (row s)) = heldIe i s := by
  have hcfg := (phaseRows_sameOutside (List.mem_of_getElem? hr) s).cfg
  simp only [heldIe, advance_cfg, advance_phase, advance_sv, advance_ie, hcfg, insideWordAccess_nextPhase hn hs]
  exact phaseRows_heldIe hn hs hr s

/-- What a micro-step at a legal phase answers, leaves alone and moves on to. -/
theorem exec_legal_frame (hi : i = .init → s.ie = false) (h : legalPhase s.cfg i s.top.phase = true) :
    ∃ t, exec i s = .next t ∧ SameOutside s t ∧ (i ≠ .ien → i ≠ .ids → heldIe i t = heldIe i s) ∧
      t.top.phase = (nextPhase s.cfg i s.top.phase).getD Phase.start ∧
      t.top.cpc = if nextPhase s.cfg i s.top.phase = none then s.top.cpc + 1 else s.top.cpc := by
  obtain ⟨row, hr, he⟩ := exec_legal hi h
  have hmem := List.mem_of_getElem? hr
  refine ⟨_, he, (phaseRows_sameOutside hmem s).trans (sameOutside_advance _ _),
    fun hn hs => heldIe_advance_row hn hs hr, advance_phase _ _, ?_⟩
  rw [advance_cpc, phaseRows_cpc hmem]

/-- From any legal phase the micro-steps left, unpreempted, end the operation. -/
theorem unpreempted_stepsLeft (k : Nat) (hk : stepsLeft s.cfg i s.top.phase = k)
    (hi : i = .init → s.ie = false) (h : legalPhase s.cfg i s.top.phase = true) :
    ∃ t, unpreempted k i s = .next t ∧ SameOutside s t ∧ t.top.cpc = s.top.cpc + 1 ∧ t.top.phase = Phase.start ∧
      (i ≠ .ien → i ≠ .ids → t.ie = heldIe i s) := by
  induction k generalizing s with
  | zero =>
    have := legalPhase_iff.1 h
    simp only [stepsLeft] at hk
    omega
  | succ k ih =>
    obtain ⟨u, hu, hout, hheld, hphase, hcpc⟩ := exec_legal_frame hi h
    cases hnext : nextPhase s.cfg i s.top.phase with
    | none =>
      rw [hnext] at hphase hcpc
      obtain rfl : k = 0 := Nat.succ.inj (hk.symm.trans (stepsLeft_last h hnext))
      refine ⟨u, by simp only [unpreempted, hu], hout, by simpa using hcpc, hphase, fun hn hs => ?_⟩
      rw [← hheld hn hs, heldIe_start hphase]
    | some q =>
      rw [hnext] at hphase hcpc
      simp only [Option.getD_some, reduceCtorEq, if_false] at hphase hcpc
      have hleft : stepsLeft u.cfg i u.top.phase = k := by
        rw [hout.cfg, hphase]
        exact Nat.succ.inj ((stepsLeft_nextPhase h hnext).symm.trans hk)
      have hie : i = .init → u.ie = false := by
        rintro rfl
        rw [← heldIe_init (s := u), hheld (by simp) (by simp), heldIe_init]
        exact hi rfl
      obtain ⟨t, ht, hout', hcpc', hphase', hheld'⟩ :=
        ih hleft hie (by rw [hout.cfg, hphase]; exact legalPhase_nextPhase hnext)
      refine ⟨t, by simp only [unpreempted, hu, ht], hout.trans hout', hcpc'.trans (by rw [hcpc]), hphase',
        fun hn hs => (hheld' hn hs).trans (hheld hn hs)⟩

end

/-- Settles O42, from the micro-steps left at the start of the operation. -/
theorem wholeOperationsComplete : Obligations.WholeOperationsComplete := by
  intro i s hp hi
  obtain ⟨t, ht, hout, hcpc, hphase, hie⟩ :=
    unpreempted_stepsLeft (opSteps s.cfg i) (by rw [hp, stepsLeft_start]) hi (by rw [hp, legalPhase_start])
  exact ⟨t, ht, hout, hcpc, hphase, fun hn hs => (hie hn hs).trans (heldIe_start hp)⟩

end Sys2Proof.Machine

/-! ## State (10_state.md): what an operation touches, writes and reads, and the invariant of every step -/

namespace Sys2Proof.Machine

section
variable {c : Config} {i : Instr} {n : Nat} {p q : Phase} {s t : State} {row : State → State}

/-! ### One micro-step, read backwards -/

/-- exec answers a next state only at a row of the operation's phase table, and for INIT only while IE = 0. -/
theorem exec_next_row (h : exec i s = .next t) :
    (i = .init → s.ie = false) ∧ ∃ row, (phaseRows s.cfg i s.top.phase.entry)[s.top.phase.sub]? = some row ∧
      t = advance (nextPhase s.cfg i s.top.phase) (row s) := by
  have hi : i = .init → s.ie = false := by
    rintro rfl
    by_contra hie
    rw [exec_init_masked (Bool.eq_true_of_not_eq_false hie)] at h
    cases h
  refine ⟨hi, ?_⟩
  cases hl : legalPhase s.cfg i s.top.phase with
  | true =>
    obtain ⟨row, hr, he⟩ := exec_legal hi hl
    exact ⟨row, hr, Host.Outcome.next.inj (h.symm.trans he)⟩
  | false =>
    rw [exec_off_rows hi hl] at h
    cases h

/-- What a micro-step leaves alone and moves on to (rules R26, R27, R28). -/
theorem exec_next_frame (h : exec i s = .next t) :
    SameOutside s t ∧ t.top.phase = (nextPhase s.cfg i s.top.phase).getD Phase.start ∧
      t.top.cpc = if nextPhase s.cfg i s.top.phase = none then s.top.cpc + 1 else s.top.cpc := by
  obtain ⟨-, row, hr, rfl⟩ := exec_next_row h
  have hmem := List.mem_of_getElem? hr
  refine ⟨(phaseRows_sameOutside hmem s).trans (sameOutside_advance _ _), advance_phase _ _, ?_⟩
  rw [advance_cpc, phaseRows_cpc hmem]

/-- The phase after a micro-step inside an operation is not the start. -/
theorem nextPhase_ne_start (h : nextPhase c i p = some q) : q ≠ Phase.start := by
  rcases nextPhase_some h with ⟨-, rfl⟩ | ⟨-, -, rfl, -⟩ <;> simp [Phase.start]

/-- A row is one of an operation other than LDEF, one of an entry of DEFAULTS, or the row of the empty list. -/
theorem phaseRows_cases (h : row ∈ phaseRows c i n) :
    (i ≠ .ldef ∧ row ∈ tableOf c i) ∨ (i = .ldef ∧ ∃ e ∈ c.defaults, row ∈ entryRows e) ∨ (i = .ldef ∧ row = id) := by
  by_cases hl : i = .ldef
  · subst hl
    right
    cases he : c.defaults[n]? with
    | some e =>
      rw [phaseRows_entry he] at h
      exact .inl ⟨rfl, e, List.mem_of_getElem? he, h⟩
    | none =>
      rw [phaseRows_noEntry he] at h
      split at h
      · exact .inr ⟨rfl, List.mem_singleton.1 h⟩
      · cases h
  · by_cases h0 : n = 0
    · subst h0
      exact .inl ⟨hl, phaseRows_table (c := c) hl ▸ h⟩
    · rw [phaseRows_noTable hl h0] at h
      cases h

end

/-- Settles O36, from the frame of one micro-step and the phase after it. -/
theorem operationsTouchOnlyTheRunningContext : Obligations.OperationsTouchOnlyTheRunningContext := by
  intro i s t h
  obtain ⟨hout, hphase, hcpc⟩ := exec_next_frame h
  refine ⟨hout, ?_⟩
  cases hnext : nextPhase s.cfg i s.top.phase with
  | none =>
    rw [hnext] at hphase hcpc
    exact .inr ⟨hcpc, hphase⟩
  | some q =>
    rw [hnext] at hphase hcpc
    simp only [Option.getD_some, reduceCtorEq, if_false] at hphase hcpc
    exact .inl ⟨hcpc, hphase ▸ nextPhase_ne_start hnext, hphase ▸ legalPhase_nextPhase hnext⟩

/-! ### The invariant of rule R39 -/

section
variable {c : Config} {i : Instr} {p : Phase} {s t : State} {row : State → State} {k : Nat}

/-- A step is a move of the state with some of the environment's decisions used up. -/
theorem moves_of_step (h : step s = .next t) : ∃ cs n, Moves (s.withChoices cs n) t := by
  obtain ⟨m, s0, -, hm, hs0, ht⟩ := step_next h
  exact ⟨s0.choices, s0.draws, m, hm, hs0 ▸ ht⟩

/-- The invariant says nothing of the environment's decisions. -/
theorem inv_withChoices (h : s.Inv) (cs : List Move) (n : Nat) : (s.withChoices cs n).Inv :=
  ⟨h.config, h.lists, h.sources, h.once, h.valid, h.masked, h.suspended⟩

/-- What a move is: a micro-step of the next operation, an enabled delivery, or the return of a finished handler. -/
theorem moves_cases (h : Moves s t) :
    (∃ i, s.top.op = some i ∧ exec i s = .next t) ∨
    (∃ k, (1 ≤ k ∧ k ≤ s.cfg.nirq) ∧ s.deliverable k = true ∧ t = takeInterrupt k s) ∨
    (s.handlers ≠ [] ∧ t = returnFromHandler s) := by
  obtain ⟨m, hm, ht⟩ := h
  cases m with
  | context => exact .inl (contextStep_next ht)
  | deliver k =>
    obtain ⟨h1, hn, hk⟩ := mem_moves_deliver.1 hm
    exact .inr (.inl ⟨k, ⟨h1, hn⟩, hk, (Host.Outcome.next.inj ht).symm⟩)
  | handlerReturn => exact .inr (.inr ⟨(mem_moves_handlerReturn.1 hm).1, (Host.Outcome.next.inj ht).symm⟩)

/-- A row whose successor is in a word access leaves IE clear: it clears IE, or it is itself in the access and keeps it. -/
theorem phaseRows_masks (hr : (phaseRows c i p.entry)[p.sub]? = some row)
    (hin : insideWordAccess c i ⟨p.entry, p.sub + 1⟩ = true) (hs : insideWordAccess c i p = true → s.ie = false) :
    (row s).ie = false := by
  have hn : i ≠ .ien := by rintro rfl; simp [insideWordAccess] at hin
  have hd : i ≠ .ids := by rintro rfl; simp [insideWordAccess] at hin
  obtain ⟨n, k⟩ := p
  rcases phaseRows_masked_or_keep c n hn hd with ⟨⟨r₁, r₂, hrows, h₁, h₂⟩, hword⟩ | ⟨-, hword⟩
  · rw [hrows] at hr
    rw [hword, decide_eq_true_eq] at hin hs
    match k, hr with
    | 0, hr => cases hr; simp
    | 1, hr => cases hr; rw [(h₁ s).1]; exact hs (by omega)
    | 2, hr => cases hr; rw [(h₂ s).1]; exact hs (by omega)
    | 3, _ => simp at hin
  · rw [hword] at hin
    cases hin

/-- A context with an operation has a command word, so its index is not at the end. -/
theorem Context.cpc_lt_of_op {c : Context} (h : c.op = some i) : c.cpc < c.stream.length := by
  by_contra hge
  simp [Context.op, Context.word, List.getElem?_eq_none (Nat.le_of_not_lt hge)] at h

/-- A context at its start is valid whatever its stream. -/
theorem Context.valid_fresh (cfg : Config) (st : Stream) (n : Nat) : (Context.fresh st n).valid cfg = true := by
  simp [Context.valid, Context.fresh]

/-- Inside an operation a micro-step moves on in the same operation. -/
theorem exec_next_op (h : exec i s = .next t) (ho : s.top.op = some i) (hp : t.top.phase ≠ Phase.start) :
    t.top.op = some i ∧ nextPhase s.cfg i s.top.phase = some t.top.phase := by
  obtain ⟨hout, hphase, hcpc⟩ := exec_next_frame h
  cases hnext : nextPhase s.cfg i s.top.phase with
  | none => rw [hnext] at hphase; exact absurd hphase hp
  | some q =>
    rw [hnext] at hphase hcpc
    exact ⟨(Context.op_congr hout.stream hcpc).trans ho, congrArg some hphase.symm⟩

/-- A micro-step keeps the running context's index and phase in range (rules R27, R28). -/
theorem exec_next_valid (h : exec i s = .next t) (ho : s.top.op = some i) : t.top.valid s.cfg = true := by
  have hlt := Context.cpc_lt_of_op ho
  obtain ⟨hout, -, hcpc⟩ := exec_next_frame h
  have hle : t.top.cpc ≤ t.top.stream.length := by
    rw [hout.stream, hcpc]
    split <;> omega
  by_cases hp : t.top.phase = Phase.start
  · simp [Context.valid, hle, hp]
  · obtain ⟨hop, hnext⟩ := exec_next_op h ho hp
    simp [Context.valid, hle, hop, legalPhase_nextPhase hnext]

/-- A micro-step into or inside a word access leaves IE clear (rule R39 (b)). -/
theorem exec_next_masked (h : exec i s = .next t) (ho : s.top.op = some i)
    (hs : s.top.inWordAccess s.cfg = true → s.ie = false) (ht : t.top.inWordAccess s.cfg = true) : t.ie = false := by
  have hp : t.top.phase ≠ Phase.start := by
    intro hp
    rw [Context.inWordAccess_start hp] at ht
    cases ht
  obtain ⟨hop, hnext⟩ := exec_next_op h ho hp
  obtain ⟨-, row, hr, rfl⟩ := exec_next_row h
  simp only [Context.inWordAccess, hop] at ht
  simp only [Context.inWordAccess, ho] at hs
  rw [advance_ie]
  refine phaseRows_masks hr ?_ hs
  rcases nextPhase_some hnext with ⟨-, hq⟩ | ⟨-, -, hq, -⟩
  · exact hq ▸ ht
  · rw [hq, insideWordAccess_sub_zero] at ht
    cases ht

/-- A handler's source is one of the sources of the stack. -/
theorem forall_handlers_source {hs : List Handler} {P : Nat → Prop} :
    (∀ h ∈ hs, P h.source) ↔ ∀ k ∈ hs.map Handler.source, P k := by simp

/-- A micro-step keeps the invariant. -/
theorem inv_exec (h : s.Inv) (ho : s.top.op = some i) (he : exec i s = .next t) : t.Inv := by
  obtain ⟨hout, -, -⟩ := exec_next_frame he
  refine ⟨?_, ?_, ?_, ?_, ?_, ?_, ?_⟩
  · rw [hout.cfg]; exact h.config
  · rw [hout.deliveries, hout.cfg]; exact h.lists
  · rw [hout.cfg, forall_handlers_source (P := fun k => 1 ≤ k ∧ k ≤ s.cfg.nirq), hout.sources]
    exact forall_handlers_source.1 h.sources
  · rw [hout.cfg, hout.sources]; exact h.once
  · intro c hc
    rw [State.stack_eq, hout.below, List.mem_append, List.mem_singleton] at hc
    rw [hout.cfg]
    rcases hc with hc | rfl
    · exact h.valid c (s.stack_eq ▸ List.mem_append_left _ hc)
    · exact exec_next_valid he ho
  · rw [hout.cfg]; exact exec_next_masked he ho h.masked
  · rw [hout.cfg, hout.below]; exact h.suspended

/-- The new context goes on top of the whole stack (rule R196). -/
theorem takeInterrupt_stack (k : Nat) (s : State) :
    (takeInterrupt k s).stack = s.stack ++ [Context.fresh ((s.remaining k).headD []) s.draws] := by
  rw [State.stack_eq]; simp

/-- A delivery keeps the invariant: IE was set, so the context it suspends was in no word access. -/
theorem inv_takeInterrupt (h : s.Inv) (hk : 1 ≤ k ∧ k ≤ s.cfg.nirq) (hd : s.deliverable k = true) :
    (takeInterrupt k s).Inv := by
  obtain ⟨hie, -, hfree⟩ := deliverable_iff.1 hd
  have htop : s.top.inWordAccess s.cfg = false := by
    by_contra hin
    rw [h.masked (Bool.eq_true_of_not_eq_false hin)] at hie
    cases hie
  refine ⟨h.config, ?_, ?_, ?_, ?_, fun _ => rfl, ?_⟩
  · simpa [takeInterrupt] using h.lists
  · exact List.forall_mem_cons.2 ⟨hk, h.sources⟩
  · intro hre
    rw [takeInterrupt_cfg] at hre
    rw [hre] at hfree
    refine List.nodup_cons.2 ⟨?_, h.once hre⟩
    simpa using hfree
  · intro c hc
    rw [takeInterrupt_stack, List.mem_append, List.mem_singleton] at hc
    rcases hc with hc | rfl
    · exact h.valid c hc
    · exact Context.valid_fresh _ _ _
  · intro c hc
    rw [takeInterrupt_below, State.stack_eq, List.mem_append, List.mem_singleton] at hc
    rcases hc with hc | rfl
    · exact h.suspended c hc
    · exact htop

/-- A return keeps the invariant: the context it resumes was suspended, so it is in no word access. -/
theorem inv_returnFromHandler (h : s.Inv) (hne : s.handlers ≠ []) : (returnFromHandler s).Inv := by
  have hstack := returnFromHandler_stack s hne
  have hbelow : ∀ c ∈ s.below, c ∈ s.stack := fun c hc => List.dropLast_subset _ hc
  refine ⟨h.config, h.lists, fun x hx => h.sources x (List.mem_of_mem_tail hx), ?_, ?_, ?_, ?_⟩
  · intro hre
    rw [returnFromHandler, List.map_tail]
    exact (h.once hre).tail
  · intro c hc
    exact h.valid c (hbelow c (hstack ▸ hc))
  · intro hin
    rw [returnFromHandler_cfg, h.suspended _ (hstack ▸ State.top_mem_stack _)] at hin
    cases hin
  · intro c hc
    exact h.suspended c (hstack ▸ List.dropLast_subset _ hc)

/-- Every move keeps the invariant. -/
theorem inv_moves (h : s.Inv) (hm : Moves s t) : t.Inv := by
  rcases moves_cases hm with ⟨i, ho, he⟩ | ⟨k, hk, hd, rfl⟩ | ⟨hne, rfl⟩
  · exact inv_exec h ho he
  · exact inv_takeInterrupt h hk hd
  · exact inv_returnFromHandler h hne

/-- So it holds of every state a run reaches. -/
theorem inv_reaches (h : s.Inv) (hr : Reaches s t) : t.Inv := by
  induction hr with
  | start => exact h
  | move _ hm ih => exact inv_moves ih hm

end

/-- Settles O51: a step is a move, and every move keeps the invariant. -/
theorem stepKeepsTheInvariant : Obligations.StepKeepsTheInvariant := by
  intro s t h hstep
  obtain ⟨cs, n, hm⟩ := moves_of_step hstep
  exact inv_moves (inv_withChoices h cs n) hm

/-- Settles O17: inside a word access IE is clear, so no delivery is enabled, and the phase is not 0, so no return is. -/
theorem wordAccessAdmitsNoOtherMove : Obligations.WordAccessAdmitsNoOtherMove := by
  intro s h hin
  have hp : s.top.phase ≠ Phase.start := by
    intro hp
    rw [Context.inWordAccess_start hp] at hin
    cases hin
  have hctx : s.contextEnabled = true := by simp [State.contextEnabled, Context.hasOperation, hp, topRefused_inside hp]
  have hret : s.returnable = false := by simp [State.returnable, Context.finished, hp]
  rw [moves_undeliverable fun k _ _ => by simp [State.deliverable, h.masked hin], hctx, hret]
  rfl

/-! ### Streams (rules R27, R37, R62) -/

section
variable {s t : State} {i : Instr}

/-- A micro-step keeps every stream of the stack. -/
theorem exec_streams (h : exec i s = .next t) : t.stack.map Context.stream = s.stack.map Context.stream := by
  obtain ⟨hout, -, -⟩ := exec_next_frame h
  rw [State.stack_eq, State.stack_eq, List.map_append, List.map_append, hout.below, List.map_singleton, List.map_singleton,
    hout.stream]

/-- A move keeps the streams of the stack, adds one that was to be delivered, or drops the top's. -/
theorem moves_streams (h : Moves s t) :
    t.stack.map Context.stream = s.stack.map Context.stream ∨
    (∃ k H rest, s.deliveries.getD (k - 1) [] = H :: rest ∧
      t.stack.map Context.stream = s.stack.map Context.stream ++ [H]) ∨
    t.stack.map Context.stream = s.below.map Context.stream := by
  rcases moves_cases h with ⟨i, -, he⟩ | ⟨k, -, hd, rfl⟩ | ⟨hne, rfl⟩
  · exact .inl (exec_streams he)
  · obtain ⟨H, rest, hrest⟩ := List.exists_cons_of_ne_nil (deliverable_iff.1 hd).2.1
    refine .inr (.inl ⟨k, H, rest, hrest, ?_⟩)
    rw [takeInterrupt_stack, List.map_append, State.remaining, hrest]
    rfl
  · exact .inr (.inr (by rw [returnFromHandler_stack s hne]))

theorem moves_cfg (h : Moves s t) : t.cfg = s.cfg := by
  rcases moves_cases h with ⟨i, -, he⟩ | ⟨k, -, -, rfl⟩ | ⟨-, rfl⟩
  · exact (exec_next_frame he).1.cfg
  · rfl
  · rfl

/-- MAIN stands first on the stack, so its stream does not depend on what is above it. -/
theorem main_stream_of_stack_prefix (h : t.stack.map Context.stream <+: s.stack.map Context.stream) :
    t.main.stream = s.main.stream := (List.cons_prefix_cons.1 h).1

/-- No move changes MAIN's stream. -/
theorem moves_main_stream (h : Moves s t) : t.main.stream = s.main.stream := by
  rcases moves_streams h with he | ⟨k, H, rest, -, he⟩ | he
  · exact main_stream_of_stack_prefix (he ▸ List.prefix_rfl)
  · exact (main_stream_of_stack_prefix (he ▸ List.prefix_append _ _)).symm
  · exact main_stream_of_stack_prefix (he ▸ (List.dropLast_prefix _).map _)

/-- What a source has still to deliver is among all that is still to be delivered. -/
theorem mem_flatten_of_mem_getD {ds : List (List Stream)} {n : Nat} {st : Stream} (h : st ∈ ds.getD n []) :
    st ∈ ds.flatten := by
  by_cases hn : n < ds.length
  · rw [List.getD_eq_getElem _ _ hn] at h
    exact List.mem_flatten.2 ⟨_, List.getElem_mem hn, h⟩
  · rw [List.getD_eq_default _ _ (Nat.le_of_not_lt hn)] at h
    cases h

/-- A delivery adds no stream to those still to be delivered. -/
theorem takeInterrupt_deliveries_subset (k : Nat) (s : State) :
    (takeInterrupt k s).deliveries.flatten ⊆ s.deliveries.flatten := by
  intro st hst
  obtain ⟨l, hl, hst⟩ := List.mem_flatten.1 hst
  rcases List.mem_or_eq_of_mem_set hl with hl | rfl
  · exact List.mem_flatten.2 ⟨l, hl, hst⟩
  · exact mem_flatten_of_mem_getD (List.mem_of_mem_tail hst)

/-- No move puts a stream on the stack or into the deliveries that was in neither. -/
theorem moves_streams_subset (h : Moves s t) :
    t.stack.map Context.stream ++ t.deliveries.flatten ⊆ s.stack.map Context.stream ++ s.deliveries.flatten := by
  rcases moves_cases h with ⟨i, -, he⟩ | ⟨k, -, hd, rfl⟩ | ⟨hne, rfl⟩
  · rw [exec_streams he, (exec_next_frame he).1.deliveries]
    exact List.Subset.refl _
  · obtain ⟨H, rest, hrest⟩ := List.exists_cons_of_ne_nil (deliverable_iff.1 hd).2.1
    have hH : H ∈ s.deliveries.flatten := mem_flatten_of_mem_getD (hrest ▸ List.mem_cons_self)
    rw [takeInterrupt_stack, State.remaining, hrest, List.map_append, List.append_assoc]
    intro st hst
    simp only [List.mem_append] at hst ⊢
    rcases hst with hst | hst | hst
    · exact .inl hst
    · exact .inr (List.mem_singleton.1 hst ▸ hH)
    · exact .inr (takeInterrupt_deliveries_subset k s hst)
  · rw [returnFromHandler_stack s hne]
    exact List.append_subset.2 ⟨fun st hst => List.mem_append_left _ (List.map_subset _ (List.dropLast_subset _) hst),
      List.subset_append_right _ _⟩

/-- In a run the configuration and MAIN's stream stay, and no stream appears that was not there at the start. -/
theorem reaches_streams (h : Reaches s t) :
    t.cfg = s.cfg ∧ t.main.stream = s.main.stream ∧
      t.stack.map Context.stream ++ t.deliveries.flatten ⊆ s.stack.map Context.stream ++ s.deliveries.flatten := by
  induction h with
  | start => exact ⟨rfl, rfl, List.Subset.refl _⟩
  | move _ hm ih =>
    obtain ⟨hcfg, hmain, hsub⟩ := ih
    exact ⟨(moves_cfg hm).trans hcfg, (moves_main_stream hm).trans hmain, List.Subset.trans (moves_streams_subset hm) hsub⟩

/-- A valid context's index is in its stream or at its end. -/
theorem Context.cpc_le_of_valid {cfg : Config} {c : Context} (h : c.valid cfg = true) : c.cpc ≤ c.stream.length := by
  simp only [Context.valid, Bool.and_eq_true, decide_eq_true_eq] at h
  exact h.1

end

/-- Settles O52, from what one move does to the streams, along the run, and the invariant at its end. -/
theorem streamsNeverChange : Obligations.StreamsNeverChange := by
  refine ⟨fun s t => moves_streams, fun s t hinv hr => ?_⟩
  obtain ⟨hcfg, hmain, hsub⟩ := reaches_streams hr
  exact ⟨hcfg, hmain, fun st hst => hsub hst, fun c hc => Context.cpc_le_of_valid ((inv_reaches hinv hr).valid c hc)⟩

/-! ### Power-on (rules R38, R220, R223) -/

/-- Settles O49: each part is a field of the initial state. -/
theorem powerOnState : Obligations.PowerOnState :=
  ⟨fun _ => ⟨rfl, rfl, rfl, rfl, rfl, rfl, rfl, fun _ => rfl⟩, rfl, rfl, rfl, rfl⟩

/-- MAIN alone at its start meets the invariant. -/
theorem inv_initial (l : Launch) (hc : l.cfg.wf = true) (hd : l.deliveries.length = l.cfg.nirq) : l.initial.Inv where
  config := hc
  lists := hd
  sources := fun _ h => nomatch h
  once := fun _ => List.nodup_nil
  valid := List.forall_mem_singleton.2 (Context.valid_fresh _ _ _)
  masked := fun _ => rfl
  suspended := fun _ h => nomatch h

/-- Settles O50: reset is the initial state of a launch too. -/
theorem powerOnInvariant : Obligations.PowerOnInvariant :=
  ⟨inv_initial, inv_initial _ (by decide) (by decide)⟩


/-! ### Slots written (rule R22) -/

/-- The slots an entry of DEFAULTS names (rule R162). -/
def entrySlots (e : DefaultEntry) : List Addr :=
  match e with
  | .byte a _ => [a]
  | .word ah al _ => [ah, al]
  | .bits a _ _ => [a]

section
variable {c : Config} {i : Instr} {n : Nat} {s t : State} {row : State → State} {a : Addr} {e : DefaultEntry}

theorem writtenSlots_ldef (c : Config) : writtenSlots c .ldef = c.defaults.flatMap entrySlots := rfl

/-- INIT writes every slot. -/
theorem mem_writtenSlots_init (c : Config) (a : Addr) : a ∈ writtenSlots c .init := by
  simp only [writtenSlots, List.mem_map, List.mem_range, Config.nslots_eq, Config.addr_eq]
  exact ⟨a.toNat, a.isLt, by simp⟩

theorem wordWriteRows_slot {ah al : Addr} {w : Word} (h : row ∈ wordWriteRows ah al w) (ha : a ∉ [ah, al])
    (s : State) : (row s).slot a = s.slot a := by
  simp only [List.mem_cons, List.not_mem_nil, or_false, not_or] at ha
  simp only [wordWriteRows, List.mem_cons, List.not_mem_nil, or_false] at h
  rcases h with rfl | rfl | rfl | rfl <;> simp [ha]

/-- A row leaves every slot alone that its operation does not write. -/
theorem tableOf_slot (h : row ∈ tableOf s.cfg i) (ha : a ∉ writtenSlots s.cfg i) : (row s).slot a = s.slot a := by
  cases i with
  | rdb b => obtain rfl := List.mem_singleton.1 h; simp
  | wrb b v => obtain rfl := List.mem_singleton.1 h; simp [List.ne_of_not_mem_cons ha]
  | rdw ah al =>
    simp only [tableOf, List.mem_cons, List.not_mem_nil, or_false] at h
    rcases h with rfl | rfl | rfl | rfl <;> simp
  | wrw ah al w => exact wordWriteRows_slot h ha s
  | bwr b v =>
    obtain rfl := List.mem_singleton.1 h
    dsimp only
    split
    · next hb =>
      have hro : region s.cfg b ≠ .readOnly := by rcases busWritePermitted_iff.1 hb with hb | ⟨hb, -⟩ <;> simp [hb]
      rw [writtenSlots, if_neg hro] at ha
      simp [List.ne_of_not_mem_cons ha]
    · rfl
  | weq => obtain rfl := List.mem_singleton.1 h; simp
  | wen => obtain rfl | rfl := List.mem_pair.1 h <;> simp [List.ne_of_not_mem_cons ha]
  | wds => obtain rfl | rfl := List.mem_pair.1 h <;> simp [List.ne_of_not_mem_cons ha]
  | init => exact absurd (mem_writtenSlots_init _ a) ha
  | ldef => cases h
  | ien => obtain rfl := List.mem_singleton.1 h; simp
  | ids => obtain rfl := List.mem_singleton.1 h; simp

/-- So does a row of an entry of DEFAULTS. -/
theorem entryRows_slot (h : row ∈ entryRows e) (ha : a ∉ entrySlots e) (s : State) : (row s).slot a = s.slot a := by
  cases e with
  | byte b v => obtain rfl := List.mem_singleton.1 h; simp [List.ne_of_not_mem_cons ha]
  | word ah al w => exact wordWriteRows_slot h ha s
  | bits b m v => obtain rfl | rfl := List.mem_pair.1 h <;> simp [List.ne_of_not_mem_cons ha]

theorem phaseRows_slot (h : row ∈ phaseRows s.cfg i n) (ha : a ∉ writtenSlots s.cfg i) : (row s).slot a = s.slot a := by
  rcases phaseRows_cases h with ⟨-, h⟩ | ⟨rfl, e, he, h⟩ | ⟨-, rfl⟩
  · exact tableOf_slot h ha
  · exact entryRows_slot h (fun hm => ha (writtenSlots_ldef _ ▸ List.mem_flatMap.2 ⟨e, he, hm⟩)) s
  · rfl

end

/-- Settles O37, from the slots a row of the phase table leaves alone. -/
theorem operationsWriteOnlyTheirSlots : Obligations.OperationsWriteOnlyTheirSlots := by
  intro i s t a h ha
  obtain ⟨-, row, hr, rfl⟩ := exec_next_row h
  rw [advance_slot]
  exact phaseRows_slot (List.mem_of_getElem? hr) ha

/-! ### Slots read (rule R22): the same micro-step from two banks -/

/-- The state with another bank. -/
def State.withBank (s : State) (b : Bank) : State := { s with bank := b }

/-- What a micro-step makes of s and of s' is alike: the results differ in the bank alone, and there only in slots that
neither wrote. -/
structure ActsAlike (s s' t t' : State) : Prop where
  rest : t' = t.withBank t'.bank
  slots : ∀ a, t'.slot a = t.slot a ∨ (t'.slot a = s'.slot a ∧ t.slot a = s.slot a)

section
variable {c : Config} {i : Instr} {n : Nat} {s t : State} {row : State → State} {a : Addr} {e : DefaultEntry} {b : Bank}

section
variable (s : State) (b : Bank)
@[simp] theorem State.withBank_cfg : (s.withBank b).cfg = s.cfg := rfl
@[simp] theorem State.withBank_ie : (s.withBank b).ie = s.ie := rfl
@[simp] theorem State.withBank_top : (s.withBank b).top = s.top := rfl
@[simp] theorem State.withBank_bank : (s.withBank b).bank = b := rfl
theorem State.withBank_setTop (d : Context) : (s.withBank b).setTop d = (s.setTop d).withBank b := by
  cases h : s.handlers <;> simp [State.setTop, State.withBank, h]
end

theorem ActsAlike.refl (s : State) (b : Bank) : ActsAlike s (s.withBank b) s (s.withBank b) :=
  ⟨rfl, fun _ => .inr ⟨rfl, rfl⟩⟩

/-- Rows that only give the running context the same micro-state act alike. -/
theorem actsAlike_setTop {d d' : Context} (h : d' = d) :
    ActsAlike s (s.withBank b) (s.setTop d) ((s.withBank b).setTop d') := by
  subst h
  exact ⟨by rw [State.withBank_setTop, State.withBank_bank], fun _ => .inr ⟨by simp, by simp⟩⟩

/-- Setting IE afterwards changes nothing of it. -/
theorem ActsAlike.setIe {s' t' : State} (h : ActsAlike s s' t t') (x : Bool) : ActsAlike s s' (t.setIe x) (t'.setIe x) :=
  ⟨congrArg (State.setIe · x) h.rest, h.slots⟩

theorem actsAlike_setIe (x : Bool) : ActsAlike s (s.withBank b) (s.setIe x) ((s.withBank b).setIe x) :=
  (ActsAlike.refl s b).setIe x

/-- The same byte written to the same slot. -/
theorem actsAlike_writeSlot (a : Addr) (v : Byte) :
    ActsAlike s (s.withBank b) (s.writeSlot a v) ((s.withBank b).writeSlot a v) := by
  refine ⟨rfl, fun x => ?_⟩
  by_cases hx : x = a
  · exact .inl (by simp [hx])
  · exact .inr (by simp [hx])

theorem actsAlike_zeroBank : ActsAlike s (s.withBank b) s.zeroBank (s.withBank b).zeroBank :=
  ⟨rfl, fun _ => .inl (by simp)⟩

theorem actsAlike_maskInterrupts : ActsAlike s (s.withBank b) (maskInterrupts s) (maskInterrupts (s.withBank b)) :=
  (actsAlike_setTop rfl).setIe false

theorem actsAlike_latchSlot (h : (s.withBank b).slot a = s.slot a) :
    ActsAlike s (s.withBank b) (latchSlot a s) (latchSlot a (s.withBank b)) := by
  refine actsAlike_setTop ?_
  rw [h, State.withBank_top]

theorem actsAlike_wordWriteRows {ah al : Addr} {w : Word} (h : row ∈ wordWriteRows ah al w) :
    ActsAlike s (s.withBank b) (row s) (row (s.withBank b)) := by
  simp only [wordWriteRows, List.mem_cons, List.not_mem_nil, or_false] at h
  rcases h with rfl | rfl | rfl | rfl
  · exact actsAlike_maskInterrupts
  · exact actsAlike_writeSlot _ _
  · exact actsAlike_writeSlot _ _
  · exact actsAlike_setIe _

/-- The gate is the same where the low flags byte is. -/
theorem gate_withBank (h : (s.withBank b).slot s.cfg.flagsLo = s.slot s.cfg.flagsLo) : (s.withBank b).gate = s.gate := by
  rw [State.gate, State.withBank_cfg, h, State.gate]

/-- A bus write is permitted alike: only in the Safe-Read-Write region does it read a slot (rule R145). -/
theorem busWritePermitted_withBank
    (h : region s.cfg a = .safeReadWrite → (s.withBank b).slot s.cfg.flagsLo = s.slot s.cfg.flagsLo) :
    busWritePermitted (s.withBank b) a = busWritePermitted s a := by
  unfold busWritePermitted
  rw [State.withBank_cfg]
  cases hr : region s.cfg a with
  | readOnly => rfl
  | readWrite => rfl
  | safeReadWrite => exact gate_withBank (h hr)

/-- A row acts alike on two banks that agree on the slots its operation reads. -/
theorem actsAlike_tableOf (h : row ∈ tableOf s.cfg i)
    (hb : ∀ a ∈ readSlots s.cfg i, (s.withBank b).slot a = s.slot a) :
    ActsAlike s (s.withBank b) (row s) (row (s.withBank b)) := by
  cases i with
  | rdb a =>
    obtain rfl := List.mem_singleton.1 h
    exact actsAlike_setTop (by rw [hb a List.mem_cons_self, State.withBank_top])
  | wrb a v => obtain rfl := List.mem_singleton.1 h; exact actsAlike_writeSlot a v
  | rdw ah al =>
    simp only [tableOf, List.mem_cons, List.not_mem_nil, or_false] at h
    rcases h with rfl | rfl | rfl | rfl
    · exact actsAlike_maskInterrupts
    · exact actsAlike_latchSlot (hb ah List.mem_cons_self)
    · exact actsAlike_setTop (by rw [hb al (List.mem_cons_of_mem _ List.mem_cons_self), State.withBank_top])
    · exact actsAlike_setIe _
  | wrw ah al w => exact actsAlike_wordWriteRows h
  | bwr a v =>
    obtain rfl := List.mem_singleton.1 h
    dsimp only
    rw [busWritePermitted_withBank fun hr => hb _ (by simp [readSlots, hr])]
    split
    · exact actsAlike_writeSlot a v
    · exact ActsAlike.refl s b
  | weq =>
    obtain rfl := List.mem_singleton.1 h
    exact actsAlike_setTop (by rw [gate_withBank (hb _ List.mem_cons_self), State.withBank_top])
  | wen =>
    obtain rfl | rfl := List.mem_pair.1 h
    · exact actsAlike_latchSlot (hb _ List.mem_cons_self)
    · exact actsAlike_writeSlot _ _
  | wds =>
    obtain rfl | rfl := List.mem_pair.1 h
    · exact actsAlike_latchSlot (hb _ List.mem_cons_self)
    · exact actsAlike_writeSlot _ _
  | init => obtain rfl := List.mem_singleton.1 h; exact actsAlike_zeroBank
  | ldef => cases h
  | ien => obtain rfl := List.mem_singleton.1 h; exact actsAlike_setIe true
  | ids => obtain rfl := List.mem_singleton.1 h; exact actsAlike_setIe false

/-- Of the entries of DEFAULTS only Bits reads its slot (rule R161). -/
theorem mem_readSlots_ldef {m v : Byte} (h : .bits a m v ∈ c.defaults) : a ∈ readSlots c .ldef :=
  List.mem_flatMap.2 ⟨_, h, List.mem_cons_self⟩

/-- And so does a row of an entry of DEFAULTS. -/
theorem actsAlike_entryRows (he : e ∈ s.cfg.defaults) (h : row ∈ entryRows e)
    (hb : ∀ a ∈ readSlots s.cfg .ldef, (s.withBank b).slot a = s.slot a) :
    ActsAlike s (s.withBank b) (row s) (row (s.withBank b)) := by
  cases e with
  | byte a v => obtain rfl := List.mem_singleton.1 h; exact actsAlike_writeSlot a v
  | word ah al w => exact actsAlike_wordWriteRows h
  | bits a m v =>
    obtain rfl | rfl := List.mem_pair.1 h
    · exact actsAlike_latchSlot (hb a (mem_readSlots_ldef he))
    · exact actsAlike_writeSlot _ _

theorem actsAlike_phaseRows (h : row ∈ phaseRows s.cfg i n)
    (hb : ∀ a ∈ readSlots s.cfg i, (s.withBank b).slot a = s.slot a) :
    ActsAlike s (s.withBank b) (row s) (row (s.withBank b)) := by
  rcases phaseRows_cases h with ⟨-, h⟩ | ⟨rfl, e, he, h⟩ | ⟨-, rfl⟩
  · exact actsAlike_tableOf h hb
  · exact actsAlike_entryRows he h hb
  · exact ActsAlike.refl s b

/-- Results that act alike have the same running context and IE. -/
theorem ActsAlike.top {s' t' : State} (h : ActsAlike s s' t t') : t'.top = t.top := by rw [h.rest, State.withBank_top]
theorem ActsAlike.ie {s' t' : State} (h : ActsAlike s s' t t') : t'.ie = t.ie := by rw [h.rest, State.withBank_ie]

end

/-- Advancing to a phase gives the running context a new micro-state that depends on nothing else. -/
theorem advance_top_congr {o : Option Phase} {s s' : State} (h : s'.top = s.top) : (advance o s').top = (advance o s).top := by
  cases o <;> simp [advance, h]

/-- Settles O38: the same row runs on both banks, and it acts alike. -/
theorem operationsReadOnlyTheirSlots : Obligations.OperationsReadOnlyTheirSlots := by
  intro i s s' t hs hb h
  obtain ⟨b, rfl⟩ : ∃ b, s' = s.withBank b := ⟨_, hs⟩
  obtain ⟨hi, row, hr, rfl⟩ := exec_next_row h
  have halike := actsAlike_phaseRows (List.mem_of_getElem? hr) hb
  refine ⟨_, exec_at_row (s := s.withBank b) hi hr, advance_top_congr halike.top, ?_, fun a => ?_⟩
  · rw [advance_ie, advance_ie]; exact halike.ie
  · rw [advance_slot, advance_slot]; exact halike.slots a

/-! ### IE (rule R25) -/

section
variable {c : Config} {i : Instr} {row : State → State}

/-- A row of an operation that is no word access does the same whatever IE is (but for IEN and IDS). -/
theorem tableOf_setIe (h : row ∈ tableOf c i) (hr : ∀ ah al, i ≠ .rdw ah al) (hw : ∀ ah al w, i ≠ .wrw ah al w)
    (hn : i ≠ .ien) (hs : i ≠ .ids) (s : State) (b : Bool) : row (s.setIe b) = (row s).setIe b := by
  cases i with
  | rdb a => obtain rfl := List.mem_singleton.1 h; simp
  | wrb a v => obtain rfl := List.mem_singleton.1 h; rfl
  | rdw ah al => exact absurd rfl (hr ah al)
  | wrw ah al w => exact absurd rfl (hw ah al w)
  | bwr a v =>
    obtain rfl := List.mem_singleton.1 h
    exact (apply_ite (State.setIe · b) (busWritePermitted s a = true) (s.writeSlot a v) s).symm
  | weq => obtain rfl := List.mem_singleton.1 h; simp [State.gate]
  | wen => obtain rfl | rfl := List.mem_pair.1 h <;> [simp; rfl]
  | wds => obtain rfl | rfl := List.mem_pair.1 h <;> [simp; rfl]
  | init => obtain rfl := List.mem_singleton.1 h; rfl
  | ldef => cases h
  | ien => exact absurd rfl hn
  | ids => exact absurd rfl hs

theorem advance_setIe (o : Option Phase) (s : State) (b : Bool) : advance o (s.setIe b) = (advance o s).setIe b := by
  cases o <;> simp [advance]

end

/-- Settles O39: the row at the phase leaves IE alone and does the same whatever IE is. -/
theorem onlyMaskingOperationsUseIe : Obligations.OnlyMaskingOperationsUseIe := by
  intro i s t h hr hw hl hn hs
  obtain ⟨-, row, hrow, rfl⟩ := exec_next_row h
  have hmem : row ∈ tableOf s.cfg i := by
    rcases phaseRows_cases (List.mem_of_getElem? hrow) with ⟨-, hm⟩ | ⟨hi, -⟩ | ⟨hi, -⟩
    · exact hm
    · exact absurd hi hl
    · exact absurd hi hl
  refine ⟨(advance_ie _ _).trans (tableOf_ie hmem hr hw hn hs s), fun hinit b => ?_⟩
  have hexec := exec_at_row (s := s.setIe b) (fun hi => absurd hi hinit) hrow
  rw [tableOf_setIe hmem hr hw hn hs, advance_setIe] at hexec
  exact hexec

/-! ### res, sv and t (rules R29, R30, R31) -/

/-- The change from s to t alters res, sv and t of the running context only where the operation writes them. -/
def RegistersWrittenBy (i : Instr) (s t : State) : Prop :=
  (t.top.res ≠ s.top.res → (∃ a, i = .rdb a) ∨ (∃ ah al, i = .rdw ah al) ∨ i = .weq) ∧
  (t.top.sv ≠ s.top.sv → (∃ ah al, i = .rdw ah al) ∨ (∃ ah al w, i = .wrw ah al w) ∨ i = .ldef) ∧
  (t.top.t ≠ s.top.t → (∃ ah al, i = .rdw ah al) ∨ i = .wen ∨ i = .wds ∨ i = .ldef)

section
variable {c : Config} {i : Instr} {n : Nat} {row : State → State} {e : DefaultEntry}

/-- A row of a word write changes no register but sv. -/
theorem wordWriteRows_registers {ah al : Addr} {w : Word} (h : row ∈ wordWriteRows ah al w) (s : State) :
    (row s).top.res = s.top.res ∧ (row s).top.t = s.top.t := by
  simp only [wordWriteRows, List.mem_cons, List.not_mem_nil, or_false] at h
  rcases h with rfl | rfl | rfl | rfl <;> simp

/-- A row of an entry of DEFAULTS does not change res. -/
theorem entryRows_res (h : row ∈ entryRows e) (s : State) : (row s).top.res = s.top.res := by
  cases e with
  | byte a v => obtain rfl := List.mem_singleton.1 h; simp
  | word ah al w => exact (wordWriteRows_registers h s).1
  | bits a m v => obtain rfl | rfl := List.mem_pair.1 h <;> simp

theorem tableOf_registersWrittenBy (h : row ∈ tableOf c i) (s : State) : RegistersWrittenBy i s (row s) := by
  unfold RegistersWrittenBy
  cases i with
  | rdb a => obtain rfl := List.mem_singleton.1 h; simp
  | wrb a v => obtain rfl := List.mem_singleton.1 h; simp
  | rdw ah al => simp
  | wrw ah al w =>
    obtain ⟨hres, ht⟩ := wordWriteRows_registers h s
    simp [hres, ht]
  | bwr a v => obtain rfl := List.mem_singleton.1 h; dsimp only; split <;> simp
  | weq => obtain rfl := List.mem_singleton.1 h; simp
  | wen => obtain rfl | rfl := List.mem_pair.1 h <;> simp
  | wds => obtain rfl | rfl := List.mem_pair.1 h <;> simp
  | init => obtain rfl := List.mem_singleton.1 h; simp
  | ldef => cases h
  | ien => obtain rfl := List.mem_singleton.1 h; simp
  | ids => obtain rfl := List.mem_singleton.1 h; simp

theorem phaseRows_registersWrittenBy (h : row ∈ phaseRows c i n) (s : State) : RegistersWrittenBy i s (row s) := by
  rcases phaseRows_cases h with ⟨-, h⟩ | ⟨rfl, e, -, h⟩ | ⟨rfl, rfl⟩
  · exact tableOf_registersWrittenBy h s
  · simp [RegistersWrittenBy, entryRows_res h]
  · simp [RegistersWrittenBy]

end

/-- Settles O40: advancing changes no register, and the row only those its operation writes. -/
theorem microStateWriters : Obligations.MicroStateWriters := by
  intro i s t h
  obtain ⟨-, row, hr, rfl⟩ := exec_next_row h
  rw [advance_res, advance_sv, advance_t]
  exact phaseRows_registersWrittenBy (List.mem_of_getElem? hr) s

end Sys2Proof.Machine

/-! ## Memory (20_memory.md): the write-then-read law -/

namespace Sys2Proof.Machine

/-! ### The operations on one byte: what is there after the micro-step (rules R66, R110, R111, R143) -/

@[simp] theorem widen_toNat (b : Byte) : (widen b).toNat = b.toNat := by
  rw [widen_eq_ofNat, BitVec.toNat_ofNat, Nat.mod_eq_of_lt (by omega)]

section
variable {i : Instr} {s t : State} {row : State → State} {a : Addr} {v : Byte}

/-- An operation whose table is one row answers that row's effect, advanced. -/
theorem exec_next_of_tableOf_singleton (h : exec i s = .next t) (hrow : tableOf s.cfg i = [row]) :
    ∃ o, t = advance o (row s) := by
  rcases exec_next h with ⟨-, -, k, row', -, hr, rfl⟩ | ⟨rfl, -⟩ | ⟨rfl, -⟩
  · rw [hrow] at hr
    exact ⟨_, by rw [List.mem_singleton.1 (List.mem_of_getElem? hr)]⟩
  · cases hrow
  · cases hrow

theorem exec_rdb_res (h : exec (.rdb a) s = .next t) : t.top.res = widen (s.slot a) := by
  obtain ⟨o, rfl⟩ := exec_next_of_tableOf_singleton h rfl
  simp

theorem exec_wrb_slot (h : exec (.wrb a v) s = .next t) : t.slot a = v := by
  obtain ⟨o, rfl⟩ := exec_next_of_tableOf_singleton h rfl
  simp

/-- A denied write leaves the slot as it was (rule R145). -/
theorem exec_bwr_slot (h : exec (.bwr a v) s = .next t) :
    t.slot a = if busWritePermitted s a then v else s.slot a := by
  obtain ⟨o, rfl⟩ := exec_next_of_tableOf_singleton h rfl
  rw [advance_slot]
  split <;> simp

end

/-- Settles O12: RDB returns what the slot holds, which is what the last write left there. -/
theorem readReturnsLastWrite : Obligations.ReadReturnsLastWrite := by
  intro a v s t u r
  refine ⟨fun hw hu hr => ?_, fun hw hu hr => ?_⟩
  · rw [exec_rdb_res hr, widen_toNat, hu, exec_wrb_slot hw]
  · rw [exec_rdb_res hr, widen_toNat, hu, exec_bwr_slot hw, apply_ite BitVec.toNat]
    simp only [busWritePermitted_iff]

end Sys2Proof.Machine

/-! ## Encoding (30_encoding.md): the decoder and the encoder, the opcode map, refused words, the assembler -/

namespace Sys2Proof.Machine

/-! ### Decode and encode are inverse (rule R86) -/

/-- Decoding reads back every field that encoding put together, and the fields a format leaves unused are zero. -/
theorem decode_encode (i : Instr) : decode (encode i) = .ok i := by
  cases i with
  | rdb a | rdw ah al | wrw ah al w =>
    simp [encode, decode, legalIf, fieldOp_assembleFields, fieldA_assembleFields, fieldB_assembleFields,
      fieldD_assembleFields]
  | wrb a v | bwr a v =>
    simp [encode, decode, legalIf, fieldOp_assembleFields, fieldA_assembleFields, fieldB_assembleFields,
      fieldDHi_assembleFields, fieldDLo_assembleFields]
  | weq | wen | wds | init | ldef | ien | ids =>
    simp [encode, decode, legalIf, fieldOp_assembleFields, fieldRest_assembleFields]

/-- Settles O2, by the fields of a word put together from fields. -/
theorem decodeOfEncode : Obligations.DecodeOfEncode := decode_encode

section
variable {cw : Command} {op : BitVec 4} {a b : Addr} {d : Word} {v : Byte} {i j : Instr}

/-- A word is put together from given fields exactly where those are its fields (rule R81). -/
theorem assembleFields_eq_iff :
    assembleFields op a b d = cw ↔ fieldOp cw = op ∧ fieldA cw = a ∧ fieldB cw = b ∧ fieldD cw = d := by
  constructor
  · rintro rfl
    simp
  · rintro ⟨rfl, rfl, rfl, rfl⟩
    exact assembleFields_fields cw

/-- D is a byte under a zero byte exactly where its two bytes are these (rule R82, format AV). -/
theorem fieldD_eq_lowByte_iff : fieldD cw = 0#8 ++ v ↔ fieldDHi cw = 0#8 ∧ fieldDLo cw = v := by
  constructor
  · intro h
    rw [← assembleFields_fields cw, h]
    simp
  · rintro ⟨hh, rfl⟩
    rw [fieldD_bytes, hh]

theorem legalIf_eq_ok_iff {u : Bool} : legalIf u i = .ok j ↔ u = true ∧ i = j := by
  cases u <;> simp [legalIf]

/-- A word of format N is its opcode with zeroes after it. -/
theorem assembleFields_formatN (ho : fieldOp cw = op) (hr : fieldRest cw = 0#28) : assembleFields op 0 0 0 = cw :=
  assembleFields_eq_iff.2 ⟨ho, (fieldRest_eq_zero cw).1 hr⟩

/-- A word of format AV is its opcode, its address and its low byte. -/
theorem assembleFields_formatAV (ho : fieldOp cw = op) (hb : fieldB cw = 0#6) (hd : fieldDHi cw = 0#8) :
    assembleFields op (fieldA cw) 0 (0#8 ++ fieldDLo cw) = cw :=
  assembleFields_eq_iff.2 ⟨ho, rfl, hb, fieldD_eq_lowByte_iff.2 ⟨hd, rfl⟩⟩

/-- Whatever opcode the decoder accepts, the operands are fields of the word and its other fields are zero, as encoding
puts them. -/
theorem encode_of_decode (h : decode cw = .ok i) : encode i = cw := by
  unfold decode at h
  split at h
  case h_4 ho =>
    cases h
    exact assembleFields_eq_iff.2 ⟨ho, rfl, rfl, rfl⟩
  case h_13 => cases h
  all_goals
    rename_i ho
    obtain ⟨hu, rfl⟩ := legalIf_eq_ok_iff.1 h
    simp only [Bool.and_eq_true, beq_iff_eq] at hu
  case h_1 => exact assembleFields_eq_iff.2 ⟨ho, rfl, hu.1, hu.2⟩
  case h_3 => exact assembleFields_eq_iff.2 ⟨ho, rfl, rfl, hu⟩
  case h_2 | h_5 => exact assembleFields_formatAV ho hu.1 hu.2
  all_goals exact assembleFields_formatN ho hu

/-- A word decodes to an operation exactly where it is the operation's encoding. -/
theorem decode_eq_ok_iff : decode cw = .ok i ↔ encode i = cw :=
  ⟨encode_of_decode, by rintro rfl; exact decode_encode i⟩

end

/-- Settles O3, by the opcodes of the decoder: a legal word is put together from its own fields. -/
theorem encodeOfDecode : Obligations.EncodeOfDecode := fun _ _ => encode_of_decode

/-- Settles O1: each word is the encoding of its operation. -/
theorem sampleWordsDecode : Obligations.SampleWordsDecode :=
  ⟨decode_encode (.rdb 0x3F), decode_encode (.wrb 0x08 0x12), decode_encode (.rdw 0x3E 0x3F),
    decode_encode (.wrw 0x09 0x08 0x1234), decode_encode (.bwr 0x20 0x55), decode_encode .weq, decode_encode .wen,
    decode_encode .wds, decode_encode .init, decode_encode .ldef, decode_encode .ien, decode_encode .ids⟩

/-! ### The opcode map (rule R84) -/

section
variable (cw : Command) (op : BitVec 4)

/-- A word matches under a mask exactly where each of its fields does. -/
theorem and_assembleFields_eq_iff (o : BitVec 4) (a b a' b' : Addr) (d d' : Word) :
    cw &&& assembleFields o a b d = assembleFields op a' b' d' ↔
      fieldOp cw &&& o = op ∧ fieldA cw &&& a = a' ∧ fieldB cw &&& b = b' ∧ fieldD cw &&& d = d' := by
  rw [eq_comm, assembleFields_eq_iff]
  conv_lhs => rw [← assembleFields_fields cw, Laws.assembleFields_and]
  simp

/-- The high byte of D alone is tested in format AV. -/
theorem fieldD_and_highByte_eq_zero_iff : fieldD cw &&& (BitVec.allOnes 8 ++ 0#8) = 0 ↔ fieldDHi cw = 0#8 := by
  rw [fieldD_bytes, BitVec.and_append, BitVec.and_allOnes, BitVec.and_zero]
  exact ⟨fun h => BitVec.extractLsb'_append_eq_left.symm.trans (congrArg hiByte h), fun h => by rw [h]; rfl⟩

theorem exists_formatA_iff :
    (∃ a, assembleFields op a 0 0 = cw) ↔
      cw &&& assembleFields (BitVec.allOnes 4) 0 (BitVec.allOnes 6) (BitVec.allOnes 16) = assembleFields op 0 0 0 := by
  simp [and_assembleFields_eq_iff, assembleFields_eq_iff, -BitVec.reduceAllOnes]

theorem exists_formatAV_iff :
    (∃ (a : Addr) (v : Byte), assembleFields op a 0 (0#8 ++ v) = cw) ↔
      cw &&& assembleFields (BitVec.allOnes 4) 0 (BitVec.allOnes 6) (BitVec.allOnes 8 ++ 0#8) = assembleFields op 0 0 0 := by
  rw [and_assembleFields_eq_iff, fieldD_and_highByte_eq_zero_iff]
  simp [assembleFields_eq_iff, fieldD_eq_lowByte_iff, -BitVec.reduceAllOnes]

theorem exists_formatAB_iff :
    (∃ a b, assembleFields op a b 0 = cw) ↔
      cw &&& assembleFields (BitVec.allOnes 4) 0 0 (BitVec.allOnes 16) = assembleFields op 0 0 0 := by
  simp [and_assembleFields_eq_iff, assembleFields_eq_iff, -BitVec.reduceAllOnes]

theorem exists_formatABD_iff :
    (∃ a b d, assembleFields op a b d = cw) ↔
      cw &&& assembleFields (BitVec.allOnes 4) 0 0 0 = assembleFields op 0 0 0 := by
  simp [and_assembleFields_eq_iff, assembleFields_eq_iff, -BitVec.reduceAllOnes]

theorem formatN_iff (w : Command) : w = cw ↔ cw &&& BitVec.allOnes 32 = w := by
  rw [BitVec.and_allOnes, eq_comm]

end

/-- Settles O4, by the five formats: a word decodes to an operation of a row where the fields its mask covers match. -/
theorem wordsMatchTheOpcodeMap : Obligations.WordsMatchTheOpcodeMap := by
  intro cw
  simp only [decode_eq_ok_iff]
  exact ⟨exists_formatA_iff cw 0x1, exists_formatAV_iff cw 0x2, exists_formatAB_iff cw 0x3, exists_formatABD_iff cw 0x4,
    exists_formatAV_iff cw 0x5, formatN_iff cw (encode .weq), formatN_iff cw (encode .wen), formatN_iff cw (encode .wds),
    formatN_iff cw (encode .init), formatN_iff cw (encode .ldef), formatN_iff cw (encode .ien), formatN_iff cw (encode .ids)⟩

/-! ### Refused words (rules R88, R160, R195) -/

section
variable {s : State} {cw : Command} {m : Move}

/-- Where the next word is refused no move is enabled but a delivery: the context has a word to run, so it has not
returned either. -/
theorem moves_of_topRefused (hr : s.topRefused = true) (hw : s.top.word = some cw) (hm : m ∈ s.moves) :
    ∃ k, m = .deliver k := by
  cases m with
  | context => simp [mem_moves_context, hr] at hm
  | handlerReturn =>
    obtain ⟨-, -, hcpc⟩ := mem_moves_handlerReturn.1 hm
    simp [Context.word, hcpc] at hw
  | deliver k => exact ⟨k, rfl⟩

/-- With no delivery enabled either, a step at a refused word answers what its context step answers. -/
theorem step_of_topRefused (hr : s.topRefused = true) (hw : s.top.word = some cw)
    (hd : ∀ k, 1 ≤ k → k ≤ s.cfg.nirq → s.deliverable k = false) : step s = contextStep s := by
  have hmoves : s.moves = [] := by
    refine List.eq_nil_iff_forall_not_mem.2 fun m hm => ?_
    obtain ⟨k, rfl⟩ := moves_of_topRefused hr hw hm
    obtain ⟨h1, hn, hk⟩ := mem_moves_deliver.1 hm
    simp [hd k h1 hn] at hk
  simp [step, chooseMove_none.2 hmoves, noMove, hr]

/-- With one enabled, the step is a delivery. -/
theorem step_deliver_of_topRefused (hr : s.topRefused = true) (hw : s.top.word = some cw) (hm : m ∈ s.moves) :
    ∃ k s0, chooseMove s = some (.deliver k, s0) ∧ step s = .next (takeInterrupt k s0) := by
  cases hc : chooseMove s with
  | none => simp [chooseMove_none.1 hc] at hm
  | some p =>
    obtain ⟨m', s0⟩ := p
    obtain ⟨k, rfl⟩ := moves_of_topRefused hr hw (chooseMove_some hc).1
    exact ⟨k, s0, rfl, by simp [step, hc, applyMove]⟩

theorem contextStep_illegal {e : Illegal} (hw : s.top.word = some cw) (hd : decode cw = .error e) :
    contextStep s = .refused .illegalCommand := by
  simp [contextStep, hw, hd]

theorem contextStep_init_masked (hw : s.top.word = some cw) (hd : decode cw = .ok .init) (hie : s.ie = true) :
    contextStep s = .refused .initWithInterruptsEnabled := by
  simp [contextStep, hw, hd, exec_init_masked hie]

end

/-- Settles O7: at a refused word only deliveries are enabled, and with none the step is the context's refusal. -/
theorem refusedWordsHaveNoStep : Obligations.RefusedWordsHaveNoStep := by
  intro s cw hw hp
  have hrefused := topRefused_iff hw hp
  refine ⟨fun h => ⟨fun hm => ?_, ?_⟩, fun hd => ⟨?_, fun hi hie => ?_⟩⟩
  · obtain ⟨k, hk⟩ := moves_of_topRefused (hrefused.2 h) hw hm
    cases hk
  · rintro ⟨k, hk⟩
    exact step_deliver_of_topRefused (hrefused.2 h) hw (mem_moves_deliver.2 hk)
  · rintro ⟨e, he⟩
    rw [step_of_topRefused (hrefused.2 (.inl ⟨e, he⟩)) hw hd, contextStep_illegal hw he]
  · rw [step_of_topRefused (hrefused.2 (.inr ⟨hi, hie⟩)) hw hd, contextStep_init_masked hw hi hie]

/-! ### The assembler (rules R89, R90) -/

/-- An operand out of its range is an assembly error. -/
theorem assemble_eq_none {c : Config} {o : SourceOp} (h : ¬o.wf c = true) : assemble c o = none := if_neg h

section
variable (c : Config) (a w : Nat)

theorem assemble_rdf (ha : a ≤ 0x3E) :
    assemble c (.rdf a) = some (.rdw (BitVec.ofNat 6 a) (BitVec.ofNat 6 (a + 1))) := by
  simp [assemble, SourceOp.wf, ha]

theorem assemble_wrf (ha : a ≤ 0x3E) (hw : w ≤ 0xFFFF) :
    assemble c (.wrf a w) = some (.wrw (BitVec.ofNat 6 a) (BitVec.ofNat 6 (a + 1)) (BitVec.ofNat 16 w)) := by
  simp [assemble, SourceOp.wf, ha, hw]

end

/-- Settles O5: a pseudo-instruction in range is one operation, and one operand out of range is an error. -/
theorem assemblerChecksAndExpands : Obligations.AssemblerChecksAndExpands := by
  intro c
  refine ⟨assemble_rdf c, assemble_wrf c, rfl, fun a ha => ⟨?_, fun w => ?_⟩, fun a v h => ⟨?_, ?_⟩, fun a ha => ?_,
    fun w hw => ⟨fun ah al => ?_, fun a => ?_⟩, fun ah al h => ⟨?_, fun w => ?_⟩⟩
  all_goals
    apply assemble_eq_none
    simp only [SourceOp.wf, Bool.and_eq_true, addrInRange_iff, byteInRange_iff, wordInRange_iff, fieldInRange_iff]
    omega

end Sys2Proof.Machine

/-! ## Storage (40_storage.md): the read and the raw write of one byte -/

namespace Sys2Proof.Machine

/-! ### A command word as a number (rules R81, R82) -/

/-- A word put together from fields is their sum at the places of rule R81. -/
theorem assembleFields_toNat (op : BitVec 4) (a b : Addr) (d : Word) :
    (assembleFields op a b d).toNat = op.toNat * 2 ^ 28 + a.toNat * 2 ^ 22 + b.toNat * 2 ^ 16 + d.toNat := by
  simp only [assembleFields, BitVec.toNat_append]
  rw [← Nat.shiftLeft_add_eq_or_of_lt a.isLt, ← Nat.shiftLeft_add_eq_or_of_lt b.isLt,
    ← Nat.shiftLeft_add_eq_or_of_lt d.isLt]
  simp only [Nat.shiftLeft_eq]
  omega

/-- Format A: the opcode and the address. -/
theorem formatA_toNat (op : BitVec 4) (a : Addr) :
    (assembleFields op a 0 0).toNat = op.toNat * 2 ^ 28 + a.toNat * 2 ^ 22 := by
  simp [assembleFields_toNat]

/-- Format AV: the opcode, the address and the byte. -/
theorem formatAV_toNat (op : BitVec 4) (a : Addr) (v : Byte) :
    (assembleFields op a 0 (0#8 ++ v)).toNat = op.toNat * 2 ^ 28 + a.toNat * 2 ^ 22 + v.toNat := by
  have hv : (0#8 ++ v : Word).toNat = v.toNat := widen_toNat v
  rw [assembleFields_toNat, hv]
  simp

/-! ### Operations of one micro-step -/

section
variable {i : Instr} {s : State} {row : State → State} (a : Addr) (v : Byte)

/-- Between operations, an operation of one row answers that row's effect and ends. -/
theorem exec_of_tableOf_singleton (hl : i ≠ .ldef) (hi : i = .init → s.ie = false) (hp : s.top.phase = Phase.start)
    (hrow : tableOf s.cfg i = [row]) : exec i s = .next (row s).finishOp := by
  rw [exec_eq_runRow hl hi, hrow, runRow_at (rows := [row]) hp rfl]
  rfl

theorem exec_rdb_start (hp : s.top.phase = Phase.start) :
    exec (.rdb a) s = .next (s.setRes (widen (s.slot a))).finishOp :=
  exec_of_tableOf_singleton (i := .rdb a) (row := fun s => s.setRes (widen (s.slot a))) nofun nofun hp rfl

theorem exec_wrb_start (hp : s.top.phase = Phase.start) :
    exec (.wrb a v) s = .next (s.writeSlot a v).finishOp :=
  exec_of_tableOf_singleton (i := .wrb a v) (row := fun s => s.writeSlot a v) nofun nofun hp rfl

end

/-- Settles O10: the one row of RDB writes res alone, and then the operation ends. -/
theorem rdbReadsOneSlot : Obligations.RdbReadsOneSlot := by
  refine ⟨formatA_toNat 0x1, fun a s hp => ⟨_, exec_rdb_start a hp, ?_, fun b => ?_, ?_, ?_⟩⟩
  · exact (exec_next_frame (exec_rdb_start a hp)).1
  · simp
  · simp
  · simp [widen_eq_ofNat]

/-- Settles O11: the one row of WRB writes its slot with no test of region or gate, and then the operation ends. -/
theorem wrbStoresOneSlot : Obligations.WrbStoresOneSlot := by
  refine ⟨formatAV_toNat 0x2, fun a v s hp => ⟨_, exec_wrb_start a v hp, ?_, ?_, fun b hb => ?_, ?_, ?_⟩⟩
  · exact (exec_next_frame (exec_wrb_start a v hp)).1
  · simp
  · simp [hb]
  · simp
  · simp

end Sys2Proof.Machine

/-! ## Atomic Word Access (41_atomic_word.md): the micro-steps, one indivisible block, no torn read -/

namespace Sys2Proof.Machine

/-! ### The four micro-steps of a word access (rules R120, R121) -/

section
variable {i : Instr} {s : State} {k : Nat} {row : State → State}

/-- A micro-step of an operation with a phase table of its own, with its frame. -/
theorem exec_at_sameOutside (hl : i ≠ .ldef) (hi : i = .init → s.ie = false) (hp : s.top.phase = ⟨0, k⟩)
    (hr : (tableOf s.cfg i)[k]? = some row) :
    ∃ t, exec i s = .next t ∧ SameOutside s t ∧
      t = advance (if k + 1 < opSteps s.cfg i then some ⟨0, k + 1⟩ else none) (row s) :=
  ⟨_, exec_at hl hi hp hr, (exec_next_frame (exec_at hl hi hp hr)).1, rfl⟩

theorem MaskedRows.opSteps {c : Config} (hl : i ≠ .ldef) (h : MaskedRows (tableOf c i)) : opSteps c i = 4 := by
  obtain ⟨r₁, r₂, hrows, -, -⟩ := h
  rw [← tableOf_length hl, hrows]
  rfl

/-- The first row of a word access saves IE and clears it (rule R122). -/
theorem exec_mask (hl : i ≠ .ldef) (hi : i ≠ .init) (h : MaskedRows (tableOf s.cfg i)) (hp : s.top.phase = ⟨0, 0⟩) :
    ∃ t, exec i s = .next t ∧ SameOutside s t ∧ (∀ b, t.slot b = s.slot b) ∧ t.ie = false ∧
      t.top = { s.top with sv := s.ie, phase := ⟨0, 1⟩ } := by
  have hlen := h.opSteps hl
  obtain ⟨r₁, r₂, hrows, -, -⟩ := h
  obtain ⟨t, he, hout, rfl⟩ := exec_at_sameOutside hl (absurd · hi) hp (row := maskInterrupts) (by rw [hrows]; rfl)
  refine ⟨_, he, hout, fun b => ?_, ?_, ?_⟩ <;> simp [hlen, advance]

/-- The last row of a word access restores IE and ends the operation (rules R122, R125). -/
theorem exec_restore (hl : i ≠ .ldef) (hi : i ≠ .init) (h : MaskedRows (tableOf s.cfg i)) (hp : s.top.phase = ⟨0, 3⟩) :
    ∃ t, exec i s = .next t ∧ SameOutside s t ∧ (∀ b, t.slot b = s.slot b) ∧ t.ie = s.top.sv ∧
      t.top = { s.top with cpc := s.top.cpc + 1, phase := Phase.start } := by
  have hlen := h.opSteps hl
  obtain ⟨r₁, r₂, hrows, -, -⟩ := h
  obtain ⟨t, he, hout, rfl⟩ := exec_at_sameOutside hl (absurd · hi) hp (row := restoreInterrupts) (by rw [hrows]; rfl)
  refine ⟨_, he, hout, fun b => ?_, ?_, ?_⟩ <;> simp [hlen, advance]

end

/-- Format AB: the opcode and the two addresses. -/
theorem formatAB_toNat (op : BitVec 4) (a b : Addr) :
    (assembleFields op a b 0).toNat = op.toNat * 2 ^ 28 + a.toNat * 2 ^ 22 + b.toNat * 2 ^ 16 := by
  simp [assembleFields_toNat]

/-- Settles O13: the rows of RDW, of which the first and the last are those of every word access. -/
theorem rdwMicroSteps : Obligations.RdwMicroSteps := by
  refine ⟨formatAB_toNat 0x3, fun ah al s => ⟨fun hp => ?_, fun hp => ?_, fun hp => ?_, fun hp => ?_⟩⟩
  · exact exec_mask nofun nofun (maskedRows_rdw ah al) hp
  · obtain ⟨t, he, hout, rfl⟩ := exec_at_sameOutside (i := .rdw ah al) nofun nofun hp rfl
    exact ⟨_, he, hout, by simp, by simp, by simp [opSteps, advance]⟩
  · obtain ⟨t, he, hout, rfl⟩ := exec_at_sameOutside (i := .rdw ah al) nofun nofun hp rfl
    exact ⟨_, he, hout, by simp, by simp, by simp [opSteps, advance, combine_eq_ofNat]⟩
  · exact exec_restore nofun nofun (maskedRows_rdw ah al) hp

/-- Settles O14: the rows of WRW, of which the first and the last are those of every word access. -/
theorem wrwMicroSteps : Obligations.WrwMicroSteps := by
  refine ⟨assembleFields_toNat 0x4, fun ah al w s => ⟨fun hp => ?_, fun hp => ?_, fun hp => ?_, fun hp => ?_⟩⟩
  · exact exec_mask nofun nofun (maskedRows_wordWriteRows ah al w) hp
  · obtain ⟨t, he, hout, rfl⟩ := exec_at_sameOutside (i := .wrw ah al w) nofun nofun hp rfl
    exact ⟨_, he, hout, by simp [hiByte_eq_ofNat], fun b hb => by simp [hb], by simp, by simp [opSteps, advance]⟩
  · obtain ⟨t, he, hout, rfl⟩ := exec_at_sameOutside (i := .wrw ah al w) nofun nofun hp rfl
    exact ⟨_, he, hout, by simp [loByte_eq_ofNat], fun b hb => by simp [hb], by simp, by simp [opSteps, advance]⟩
  · exact exec_restore nofun nofun (maskedRows_wordWriteRows ah al w) hp

/-! ### One indivisible block (rules R124, R125) -/

section
variable {i : Instr} {s s0 t u v w : State}

/-- Inside an operation with IE clear no delivery is enabled and no return, so only the context can move. -/
theorem moves_of_masked_inside (hie : s.ie = false) (hp : s.top.phase ≠ Phase.start) : s.moves = [.context] := by
  have hctx : s.contextEnabled = true := by simp [State.contextEnabled, Context.hasOperation, hp, topRefused_inside hp]
  have hret : s.returnable = false := by simp [State.returnable, Context.finished, hp]
  rw [moves_undeliverable fun k _ _ => by simp [State.deliverable, hie], hctx, hret]
  rfl

/-- Where the context's move is chosen, the step is its operation's micro-step. -/
theorem step_of_chosen (ho : s0.top.op = some i) (hc : chooseMove s = some (.context, s0)) : step s = exec i s0 := by
  simp [step, hc, applyMove, contextStep_op ho]

/-- Inside an operation with IE clear it is that whatever the environment decides. -/
theorem step_of_masked_inside (ho : s.top.op = some i) (hie : s.ie = false) (hp : s.top.phase ≠ Phase.start) :
    step s = exec i s :=
  step_of_chosen ho (chooseMove_single (moves_of_masked_inside hie hp))

theorem steps_succ_of_step (n : Nat) (h : step s = .next t) : steps (n + 1) s = steps n t := by simp [steps, h]

/-- A micro-step after which the operation goes on and IE is clear. -/
structure MaskedStep (i : Instr) (s t : State) : Prop where
  exec : exec i s = .next t
  masked : t.ie = false
  inside : t.top.phase ≠ Phase.start

/-- After such a micro-step the next step is the same operation's, whatever the environment decides. -/
theorem MaskedStep.next (h : MaskedStep i s t) (ho : s.top.op = some i) : t.top.op = some i ∧ step t = Machine.exec i t :=
  have hot := (exec_next_op h.exec ho h.inside).1
  ⟨hot, step_of_masked_inside hot h.masked h.inside⟩

/-- Once the first of four micro-steps has been chosen and has cleared IE, the next three steps are the operation's too. -/
theorem steps_four_of_masked (ho : s0.top.op = some i) (hc : chooseMove s = some (.context, s0)) (ht : MaskedStep i s0 t)
    (hu : MaskedStep i t u) (hv : MaskedStep i u v) (hw : exec i v = .next w) : steps 4 s = .next w := by
  obtain ⟨hot, hst⟩ := ht.next ho
  obtain ⟨hou, hsu⟩ := hu.next hot
  obtain ⟨-, hsv⟩ := hv.next hou
  calc steps 4 s = steps 3 t := steps_succ_of_step 3 ((step_of_chosen ho hc).trans ht.exec)
    _ = steps 2 u := steps_succ_of_step 2 (hst.trans hu.exec)
    _ = steps 1 v := steps_succ_of_step 1 (hsu.trans hv.exec)
    _ = .next w := steps_succ_of_step 0 (hsv.trans hw)

/-- What choosing a move leaves alone: all that an operation reads or writes. -/
theorem chooseMove_frame {m : Move} (h : chooseMove s = some (m, s0)) :
    s0.top = s.top ∧ s0.ie = s.ie ∧ ∀ b, s0.slot b = s.slot b := by
  rw [(chooseMove_some h).2]
  exact ⟨rfl, rfl, fun _ => rfl⟩

end

/-- Settles O15, from the four micro-steps of RDW: the first clears IE, so no other move comes between them. -/
theorem rdwRunsAsOneBlock : Obligations.RdwRunsAsOneBlock := by
  intro ah al s s0 hp ho hc
  obtain ⟨htop, hie, hslot⟩ := chooseMove_frame hc
  rw [← htop] at hp ho
  obtain ⟨t, ht, hout, hts, htie, htt⟩ := (rdwMicroSteps.2 ah al s0).1 hp
  obtain ⟨u, hu, hout', hus, huie, hut⟩ := (rdwMicroSteps.2 ah al t).2.1 (by rw [htt])
  obtain ⟨v, hv, hout'', hvs, hvie, hvt⟩ := (rdwMicroSteps.2 ah al u).2.2.1 (by rw [hut])
  obtain ⟨w, hw, hout''', hws, hwie, hwt⟩ := (rdwMicroSteps.2 ah al v).2.2.2 (by rw [hvt])
  have hmt : MaskedStep _ s0 t := ⟨ht, htie, by simp [htt, Phase.start]⟩
  have hmu : MaskedStep _ t u := ⟨hu, by rw [huie, htie], by simp [hut, Phase.start]⟩
  have hmv : MaskedStep _ u v := ⟨hv, by rw [hvie, huie, htie], by simp [hvt, Phase.start]⟩
  refine ⟨w, steps_four_of_masked ho hc hmt hmu hmv hw, hout.trans (hout'.trans (hout''.trans hout''')),
    fun b => ?_, ?_, ?_⟩
  · rw [hws, hvs, hus, hts, hslot]
  · simp [hwie, hvt, hut, htt, hie]
  · simp [hwt, hvt, hut, htt, htop, hie, hus, hts, hslot, ← hp]

/-- Settles O16, from the four micro-steps of WRW: the first clears IE, so no other move comes between them. -/
theorem wrwRunsAsOneBlock : Obligations.WrwRunsAsOneBlock := by
  intro ah al w s s0 hp ho hc
  obtain ⟨htop, hie, hslot⟩ := chooseMove_frame hc
  rw [← htop] at hp ho
  obtain ⟨t, ht, hout, hts, htie, htt⟩ := (wrwMicroSteps.2 ah al w s0).1 hp
  obtain ⟨u, hu, hout', huh, hus, huie, hut⟩ := (wrwMicroSteps.2 ah al w t).2.1 (by rw [htt])
  obtain ⟨v, hv, hout'', hvl, hvs, hvie, hvt⟩ := (wrwMicroSteps.2 ah al w u).2.2.1 (by rw [hut])
  obtain ⟨x, hx, hout''', hxs, hxie, hxt⟩ := (wrwMicroSteps.2 ah al w v).2.2.2 (by rw [hvt])
  have hmt : MaskedStep _ s0 t := ⟨ht, htie, by simp [htt, Phase.start]⟩
  have hmu : MaskedStep _ t u := ⟨hu, by rw [huie, htie], by simp [hut, Phase.start]⟩
  have hmv : MaskedStep _ u v := ⟨hv, by rw [hvie, huie, htie], by simp [hvt, Phase.start]⟩
  refine ⟨x, steps_four_of_masked ho hc hmt hmu hmv hx, hout.trans (hout'.trans (hout''.trans hout''')),
    ?_, fun hne => ?_, fun b hbh hbl => ?_, ?_, ?_⟩
  · rw [hxs, hvl]
  · rw [hxs, hvs ah hne, huh]
  · rw [hxs, hvs b hbl, hus b hbh, hts, hslot]
  · simp [hxie, hvt, hut, htt, hie]
  · simp [hxt, hvt, hut, htt, htop, hie, ← hp]

/-! ### No torn read (rule R124 (a), (b))

While every write of the pair is a whole word write of an admitted value, the pair holds an admitted value but between the
two writes of such a word, where its high byte is written and its low byte is to come. That is inside a word access, so no
other context sees it. -/

/-- In the rows with first part n of the phase the operation writes the word w to h and l (rules R121, R161). -/
inductive WritesWord (c : Config) : Instr → Nat → Addr → Addr → Word → Prop where
  | wrw (h l : Addr) (w : Word) : WritesWord c (.wrw h l w) 0 h l w
  | entry {n : Nat} {h l : Addr} {w : Word} : c.defaults[n]? = some (.word h l w) → WritesWord c .ldef n h l w

/-- The context has written the high byte of the word w to h and its low byte, to l, is next. -/
def Context.BetweenWrites (cfg : Config) (c : Context) (h l : Addr) (w : Word) : Prop :=
  ∃ i, c.op = some i ∧ c.phase.sub = 2 ∧ WritesWord cfg i c.phase.entry h l w

/-- The pair is as rule R124 wants it seen: it holds an admitted value unless the running context is between the two writes
of a word to it, and then it holds the high byte of that word; and an RDW of the pair has latched the byte that is there. -/
structure PairWhole (ah al : Addr) (W : Word → Prop) (s : State) : Prop where
  whole : W (s.pair ah al) ∨ ∃ w, s.top.BetweenWrites s.cfg ah al w
  high : ∀ w, s.top.BetweenWrites s.cfg ah al w → s.slot ah = hiByte w
  latched : s.top.op = some (.rdw ah al) → s.top.phase = ⟨0, 2⟩ → s.top.t = s.slot ah

section
variable {c : Config} {i : Instr} {n k : Nat} {h l ah al : Addr} {w : Word} {W : Word → Prop} {s t : State}
  {row : State → State}

theorem WritesWord.phaseRows (hw : WritesWord c i n h l w) : phaseRows c i n = wordWriteRows h l w := by
  cases hw with
  | wrw => exact phaseRows_table nofun
  | entry he => exact phaseRows_entry he

/-- A word that an operation with the premise of rule R124 writes to the pair has an admitted value. -/
theorem WritesWord.admitted (hw : WritesWord c i n ah al w) (hk : keepsPairWhole c ah al W i) : W w := by
  have hok : pairWriteOk ah al W ah al w := by
    cases hw with
    | wrw => exact hk
    | entry he => exact hk _ (List.mem_of_getElem? he)
  rcases hok with ⟨-, -, hW⟩ | ⟨hne, -⟩
  · exact hW
  · exact absurd rfl hne

theorem Context.BetweenWrites.inWordAccess {cfg : Config} {d : Context} (hb : d.BetweenWrites cfg h l w) :
    d.inWordAccess cfg = true := by
  obtain ⟨i, ho, hsub, hw⟩ := hb
  simp only [Context.inWordAccess, ho]
  generalize d.phase = p at hsub hw
  obtain ⟨m, k⟩ := p
  obtain rfl : k = 2 := hsub
  cases hw with
  | wrw => rfl
  | entry he => simp [insideWordAccess, he]

/-! #### What a row does to the pair -/

theorem pair_congr (hh : t.slot ah = s.slot ah) (hl : t.slot al = s.slot al) : t.pair ah al = s.pair ah al := by
  rw [State.pair, hh, hl, State.pair]

/-- A row of a word write that rule R124 admits leaves the pair alone, or is one of the two writes of the pair. -/
theorem wordWriteRows_pair (hr : (wordWriteRows h l w)[k]? = some row) (hok : pairWriteOk ah al W h l w) (s : State) :
    (row s).pair ah al = s.pair ah al ∨ (h = ah ∧ l = al ∧ (k = 1 ∨ k = 2)) := by
  rcases hok with ⟨rfl, rfl, -⟩ | ⟨h1, h2, h3, h4⟩
  · match k, hr with
    | 0, hr => cases hr; exact .inl (pair_congr (by simp) (by simp))
    | 1, _ => exact .inr ⟨rfl, rfl, .inl rfl⟩
    | 2, _ => exact .inr ⟨rfl, rfl, .inr rfl⟩
    | 3, hr => cases hr; exact .inl rfl
  · have hmem := List.mem_of_getElem? hr
    exact .inl (pair_congr (wordWriteRows_slot hmem (by simp [h1.symm, h3.symm]) s)
      (wordWriteRows_slot hmem (by simp [h2.symm, h4.symm]) s))

/-- With the premise of rule R124 an operation other than WRW, INIT and LDEF writes neither slot of the pair. -/
theorem not_mem_writtenSlots_of_keepsPairWhole (hk : keepsPairWhole c ah al W i) (hw : ∀ h l w, i ≠ .wrw h l w)
    (hi : i ≠ .init) (hl : i ≠ .ldef) : ah ∉ writtenSlots c i ∧ al ∉ writtenSlots c i := by
  cases i with
  | wrb | wen | wds => simpa [writtenSlots, keepsPairWhole, eq_comm] using hk
  | bwr a v =>
    simp only [writtenSlots]
    split
    · simp
    · simpa [keepsPairWhole, eq_comm] using hk
  | wrw h l w => exact absurd rfl (hw h l w)
  | init => exact absurd rfl hi
  | ldef => exact absurd rfl hl
  | rdb | rdw | weq | ien | ids => simp [writtenSlots]

/-- A row of an operation other than LDEF with the premise of rule R124 leaves the pair alone, gives it an admitted value at
once, or is one of the two writes of a word to it. -/
theorem tableOf_pair (hr : (tableOf s.cfg i)[k]? = some row) (hk : keepsPairWhole s.cfg ah al W i) :
    (row s).pair ah al = s.pair ah al ∨ W ((row s).pair ah al) ∨
      ((k = 1 ∨ k = 2) ∧ ∃ w, WritesWord s.cfg i 0 ah al w) := by
  have hmem := List.mem_of_getElem? hr
  cases i with
  | wrw h l w =>
    rcases wordWriteRows_pair hr hk s with hsame | ⟨rfl, rfl, hrow⟩
    · exact .inl hsame
    · exact .inr (.inr ⟨hrow, w, .wrw h l w⟩)
  | init =>
    obtain rfl := List.mem_singleton.1 hmem
    have hzero : W 0 := hk
    exact .inr (.inl (by simpa [State.pair, combine_eq_ofNat] using hzero))
  | ldef => cases hr
  | _ =>
    obtain ⟨hh, hl⟩ := not_mem_writtenSlots_of_keepsPairWhole hk nofun nofun nofun
    exact .inl (pair_congr (tableOf_slot hmem hh) (tableOf_slot hmem hl))

/-- So does a row of an entry of DEFAULTS; only a Word entry writes the pair. -/
theorem entryRows_pair {e : DefaultEntry} (he : s.cfg.defaults[n]? = some e) (hr : (entryRows e)[k]? = some row)
    (hk : keepsPairWhole s.cfg ah al W .ldef) :
    (row s).pair ah al = s.pair ah al ∨ ((k = 1 ∨ k = 2) ∧ ∃ w, WritesWord s.cfg .ldef n ah al w) := by
  have hok := hk e (List.mem_of_getElem? he)
  have hmem := List.mem_of_getElem? hr
  cases e with
  | word h l w =>
    rcases wordWriteRows_pair hr hok s with hsame | ⟨rfl, rfl, hrow⟩
    · exact .inl hsame
    · exact .inr ⟨hrow, w, .entry he⟩
  | byte | bits =>
    obtain ⟨hh, hl⟩ := hok
    exact .inl (pair_congr (entryRows_slot hmem (by simpa [entrySlots] using hh.symm) s)
      (entryRows_slot hmem (by simpa [entrySlots] using hl.symm) s))

/-- So does a row of any operation. -/
theorem phaseRows_pair (hr : (phaseRows s.cfg i n)[k]? = some row) (hk : keepsPairWhole s.cfg ah al W i) :
    (row s).pair ah al = s.pair ah al ∨ W ((row s).pair ah al) ∨
      ((k = 1 ∨ k = 2) ∧ ∃ w, WritesWord s.cfg i n ah al w) := by
  by_cases hl : i = .ldef
  · subst hl
    cases he : s.cfg.defaults[n]? with
    | some e => exact (entryRows_pair he (phaseRows_entry he ▸ hr) hk).imp_right .inr
    | none =>
      rw [phaseRows_noEntry he] at hr
      split at hr
      · obtain rfl := List.mem_singleton.1 (List.mem_of_getElem? hr)
        exact .inl rfl
      · cases hr
  · obtain rfl : n = 0 := by
      by_contra hn
      simp [phaseRows_noTable hl hn] at hr
    exact tableOf_pair (phaseRows_table hl ▸ hr) hk

/-! #### A micro-step -/

/-- A micro-step that comes to a phase other than the first of its entry goes on in the same rows. -/
theorem exec_next_sub_succ (he : exec i s = .next t) (ho : s.top.op = some i) (hsub : t.top.phase.sub = k + 1) :
    t.top.op = some i ∧ t.top.phase.entry = s.top.phase.entry ∧ s.top.phase.sub = k := by
  obtain ⟨hop, hnext⟩ := exec_next_op he ho (fun hp => by simp [hp, Phase.start] at hsub)
  rcases nextPhase_some hnext with ⟨-, hq⟩ | ⟨-, -, hq, -⟩
  · rw [hq] at hsub ⊢
    exact ⟨hop, rfl, Nat.succ.inj hsub⟩
  · simp [hq] at hsub

/-- A micro-step comes between the two writes of a word exactly by the first of them. -/
theorem exec_next_betweenWrites (he : exec i s = .next t) (ho : s.top.op = some i) :
    t.top.BetweenWrites t.cfg h l w ↔ s.top.phase.sub = 1 ∧ WritesWord s.cfg i s.top.phase.entry h l w := by
  obtain ⟨hout, hphase, hcpc⟩ := exec_next_frame he
  rw [hout.cfg]
  constructor
  · rintro ⟨j, hj, hsub, hw⟩
    obtain ⟨hop, hentry, hone⟩ := exec_next_sub_succ he ho hsub
    obtain rfl := Option.some.inj (hop.symm.trans hj)
    exact ⟨hone, hentry ▸ hw⟩
  · rintro ⟨hone, hw⟩
    have hnext : nextPhase s.cfg i s.top.phase = some ⟨s.top.phase.entry, 2⟩ := by
      simp [nextPhase, hw.phaseRows, hone, wordWriteRows]
    rw [hnext] at hphase hcpc
    exact ⟨i, (Context.op_congr hout.stream hcpc).trans ho, by simp [hphase], by simpa [hphase] using hw⟩

/-- A micro-step of an operation with the premise of rule R124 keeps the pair whole. -/
theorem pairWhole_exec (hne : ah ≠ al) (ho : s.top.op = some i) (hk : keepsPairWhole s.cfg ah al W i)
    (h : PairWhole ah al W s) (he : exec i s = .next t) : PairWhole ah al W t := by
  obtain ⟨-, row, hr, ht⟩ := exec_next_row he
  have hslot : ∀ a, t.slot a = (row s).slot a := fun a => by rw [ht, advance_slot]
  have hpair : t.pair ah al = (row s).pair ah al := pair_congr (hslot ah) (hslot al)
  refine ⟨?_, fun w hb => ?_, fun hop hp => ?_⟩
  · rw [hpair]
    by_cases hb : ∃ w, s.top.BetweenWrites s.cfg ah al w
    · obtain ⟨w, hb⟩ := hb
      have hhigh := h.high w hb
      obtain ⟨j, hj, hsub, hw⟩ := hb
      obtain rfl := Option.some.inj (ho.symm.trans hj)
      rw [hw.phaseRows, hsub] at hr
      cases hr
      exact .inl (by simpa [State.pair, hne, hhigh] using hw.admitted hk)
    · have hW := h.whole.resolve_right hb
      rcases phaseRows_pair hr hk with hsame | hadm | ⟨hone | htwo, w, hw⟩
      · exact .inl (hsame ▸ hW)
      · exact .inl hadm
      · exact .inr ⟨w, (exec_next_betweenWrites he ho).2 ⟨hone, hw⟩⟩
      · exact absurd ⟨w, i, ho, htwo, hw⟩ hb
  · obtain ⟨hone, hw⟩ := (exec_next_betweenWrites he ho).1 hb
    rw [hw.phaseRows, hone] at hr
    cases hr
    simp [hslot]
  · obtain ⟨hi, hentry, hone⟩ := exec_next_sub_succ he ho (congrArg Phase.sub hp)
    obtain rfl := Option.some.inj (hi.symm.trans hop)
    obtain rfl : latchSlot ah = row := by simpa [← hentry, hp, hone, tableOf] using hr
    simp [ht]

/-! #### A run -/

/-- Outside a word access the pair is whole where it holds an admitted value. -/
theorem pairWhole_iff_of_outside (hout : s.top.inWordAccess s.cfg = false) :
    PairWhole ah al W s ↔ W (s.pair ah al) := by
  have hb : ∀ w, ¬s.top.BetweenWrites s.cfg ah al w := fun w hb => by
    rw [hb.inWordAccess] at hout
    cases hout
  refine ⟨fun h => h.whole.resolve_right fun ⟨w, hw⟩ => hb w hw,
    fun hW => ⟨.inl hW, fun w hw => absurd hw (hb w), fun hop hp => ?_⟩⟩
  simp [Context.inWordAccess, hop, hp, insideWordAccess] at hout

/-- A move is a micro-step, or it changes the running context, from one outside a word access to another, and no slot. -/
theorem moves_exec_or_switch (hinv : s.Inv) (hm : Moves s t) :
    (∃ i, s.top.op = some i ∧ exec i s = .next t) ∨
    (s.top.inWordAccess s.cfg = false ∧ t.top.inWordAccess t.cfg = false ∧ ∀ a, t.slot a = s.slot a) := by
  obtain ⟨m, hm, ht⟩ := hm
  cases m with
  | context => exact .inl (contextStep_next ht)
  | deliver k =>
    cases ht
    obtain ⟨-, -, hk⟩ := mem_moves_deliver.1 hm
    refine .inr ⟨?_, Context.inWordAccess_start rfl, fun _ => rfl⟩
    by_contra hin
    simp [hinv.masked (Bool.eq_true_of_not_eq_false hin), State.deliverable] at hk
  | handlerReturn =>
    cases ht
    obtain ⟨hne, hp, -⟩ := mem_moves_handlerReturn.1 hm
    exact .inr ⟨Context.inWordAccess_start hp,
      hinv.suspended _ (returnFromHandler_stack s hne ▸ State.top_mem_stack _), fun _ => rfl⟩

/-- The operation of a context is decoded from a word of its stream. -/
theorem Context.mem_stream_of_op {d : Context} (h : d.op = some i) : ∃ cw ∈ d.stream, decode cw = .ok i := by
  unfold Context.op at h
  split at h
  · cases h
  · next cw hw =>
    refine ⟨cw, List.mem_of_getElem? hw, ?_⟩
    cases hd : decode cw <;> simp_all [Except.toOption]

/-- What holds of every operation of a run holds of the one that is executed. -/
theorem State.everyOp_top {P : Instr → Prop} (h : s.everyOp P) (ho : s.top.op = some i) : P i := by
  obtain ⟨cw, hcw, hd⟩ := Context.mem_stream_of_op ho
  exact h _ (List.mem_append_left _ (List.mem_map_of_mem s.top_mem_stack)) cw hcw i hd

/-- Along a run the pair stays whole. -/
theorem pairWhole_reaches (hne : ah ≠ al) (hinv : s.Inv) (hk : s.everyOp (keepsPairWhole s.cfg ah al W))
    (h : PairWhole ah al W s) (hr : Reaches s t) : PairWhole ah al W t := by
  induction hr with
  | start => exact h
  | move hr hm ih =>
    rcases moves_exec_or_switch (inv_reaches hinv hr) hm with ⟨i, ho, he⟩ | ⟨hout, hout', hslot⟩
    · obtain ⟨hcfg, -, hsub⟩ := reaches_streams hr
      have hi : keepsPairWhole s.cfg ah al W i := State.everyOp_top (fun st hst => hk st (hsub hst)) ho
      exact pairWhole_exec hne ho (hcfg ▸ hi) ih he
    · rw [pairWhole_iff_of_outside hout', pair_congr (hslot ah) (hslot al)]
      exact (pairWhole_iff_of_outside hout).1 ih

/-- At the row of RDW that reads the low byte the pair holds an admitted value, and its high byte is latched. -/
theorem PairWhole.admitted_of_rdw (h : PairWhole ah al W s) (ho : s.top.op = some (.rdw ah al))
    (hp : s.top.phase = ⟨0, 2⟩) : W (combine s.top.t (s.slot al)) := by
  rw [h.latched ho hp]
  refine h.whole.resolve_right ?_
  rintro ⟨w, i, hi, -, hw⟩
  obtain rfl := Option.some.inj (ho.symm.trans hi)
  cases hw

end

/-- Settles O18: the pair stays whole along the run, so what RDW combines is an admitted value. -/
theorem noTornRead : Obligations.NoTornRead := by
  intro ah al W s t u hne hinv hout hW hk hr ho hp he
  have h := pairWhole_reaches hne hinv hk ((pairWhole_iff_of_outside hout).2 hW) hr
  obtain ⟨v, hv, -, -, -, htop⟩ := (rdwMicroSteps.2 ah al t).2.2.1 hp
  obtain rfl : v = u := Host.Outcome.next.inj (hv.symm.trans ((contextStep_op ho).symm.trans he))
  rw [htop, ← combine_eq_ofNat]
  exact h.admitted_of_rdw ho hp

end Sys2Proof.Machine

/-! ## Access Policy (42_access_policy.md): the gate, its operations, the bus write, and who can open a locked gate -/

namespace Sys2Proof.Machine

/-! ### What the gate depends on (rule R33) -/

section
variable {s t : State} {a : Addr} {v : Byte}

/-- The gate is the same where the configuration and the low flags byte are. -/
theorem gate_congr (hc : t.cfg = s.cfg) (hs : t.slot s.cfg.flagsLo = s.slot s.cfg.flagsLo) : t.gate = s.gate := by
  rw [State.gate, hc, hs, State.gate]

@[simp] theorem gate_setTop (s : State) (c : Context) : (s.setTop c).gate = s.gate :=
  gate_congr (s.setTop_cfg c) (s.setTop_slot _ c)

@[simp] theorem gate_setIe (s : State) (b : Bool) : (s.setIe b).gate = s.gate := rfl

@[simp] theorem gate_advance (o : Option Phase) (s : State) : (advance o s).gate = s.gate :=
  gate_congr (advance_cfg o s) (advance_slot o s _)

@[simp] theorem gate_zeroBank (s : State) : s.zeroBank.gate = false := by simp [State.gate]

/-- A write keeps the gate locked that does not set the gate bit of the low flags byte. -/
theorem gate_writeSlot_locked (hg : s.gate = false) (hv : a = s.cfg.flagsLo → testBit v s.cfg.gateBit = false) :
    (s.writeSlot a v).gate = false := by
  rw [State.gate, State.writeSlot_cfg, State.writeSlot_slot]
  split
  · next ha => exact hv ha.symm
  · exact hg

end

/-! ### WEQ (rule R140) -/

theorem exec_weq_start {s : State} (hp : s.top.phase = Phase.start) :
    exec .weq s = .next (s.setRes (widenBit s.gate)).finishOp :=
  exec_of_tableOf_singleton (i := .weq) (row := fun s => s.setRes (widenBit s.gate)) nofun nofun hp rfl

theorem exec_weq_res {s t : State} (h : exec .weq s = .next t) : t.top.res = widenBit s.gate := by
  obtain ⟨o, rfl⟩ := exec_next_of_tableOf_singleton h rfl
  simp

/-- Settles O20: the one row of WEQ writes res alone, and then the operation ends. -/
theorem weqReportsTheGate : Obligations.WeqReportsTheGate := by
  refine ⟨by decide, fun s hp => ⟨_, exec_weq_start hp, (exec_next_frame (exec_weq_start hp)).1, fun b => ?_, ?_, ?_⟩⟩
  · simp
  · simp
  · simp [widenBit, State.gate, testBit]

/-! ### WEN and WDS (rules R141, R142, R144) -/

/-- The operation latches the low flags byte and then stores it back with the gate bit x, the other seven bits kept: what WEN
and WDS have in common. -/
structure SetsGate (i : Instr) (x : Bool) (f : Byte → Fin 8 → Byte) : Prop where
  rows : ∀ c : Config, tableOf c i = [latchSlot c.flagsLo, fun s => s.writeSlot c.flagsLo (f s.top.t c.gateBit)]
  bits : ∀ b g k, testBit (f b g) k = if k = g then x else testBit b k

theorem setsGate_wen : SetsGate .wen true setBit := ⟨fun _ => rfl, testBit_setBit⟩

theorem setsGate_wds : SetsGate .wds false clearBit := ⟨fun _ => rfl, testBit_clearBit⟩

section
variable {i : Instr} {x : Bool} {f : Byte → Fin 8 → Byte} {s t : State}

theorem SetsGate.ne_ldef (h : SetsGate i x f) : i ≠ .ldef := by
  rintro rfl
  exact List.cons_ne_nil _ _ (h.rows Config.reference).symm

theorem SetsGate.ne_init (h : SetsGate i x f) : i ≠ .init := by
  rintro rfl
  simpa [tableOf] using h.rows Config.reference

theorem SetsGate.opSteps (h : SetsGate i x f) (c : Config) : opSteps c i = 2 := by
  rw [← tableOf_length h.ne_ldef, h.rows]
  rfl

/-- Phase 0 latches the low flags byte. -/
theorem SetsGate.exec_latch (h : SetsGate i x f) (hp : s.top.phase = ⟨0, 0⟩) :
    ∃ t, exec i s = .next t ∧ SameOutside s t ∧ (∀ b, t.slot b = s.slot b) ∧ t.ie = s.ie ∧
      t.top = { s.top with t := s.slot s.cfg.flagsLo, phase := ⟨0, 1⟩ } := by
  obtain ⟨t, he, hout, rfl⟩ := exec_at_sameOutside h.ne_ldef (absurd · h.ne_init) hp (by rw [h.rows]; rfl)
  refine ⟨_, he, hout, fun b => ?_, ?_, ?_⟩ <;> simp [h.opSteps, advance]

/-- Phase 1 stores what is latched with the gate bit set or cleared, whatever the slot holds by now. -/
theorem SetsGate.exec_store (h : SetsGate i x f) (hp : s.top.phase = ⟨0, 1⟩) :
    ∃ t, exec i s = .next t ∧ SameOutside s t ∧ (∀ b, b ≠ s.cfg.flagsLo → t.slot b = s.slot b) ∧
      (∀ k : Fin 8, (t.slot s.cfg.flagsLo).getLsbD k = if k = s.cfg.gateBit then x else s.top.t.getLsbD k) ∧
      t.ie = s.ie ∧ t.top = { s.top with cpc := s.top.cpc + 1, phase := Phase.start } := by
  obtain ⟨t, he, hout, rfl⟩ := exec_at_sameOutside h.ne_ldef (absurd · h.ne_init) hp (by rw [h.rows]; rfl)
  refine ⟨_, he, hout, fun b hb => ?_, fun k => ?_, ?_, ?_⟩
  · simp [hb]
  · rw [advance_slot, State.writeSlot_slot, if_pos rfl]
    exact h.bits s.top.t s.cfg.gateBit k
  · simp
  · simp [h.opSteps, advance]

/-- When the operation completes, preempted or not, the gate is as it sets it. -/
theorem SetsGate.gate_of_exec_store (h : SetsGate i x f) (hp : s.top.phase = ⟨0, 1⟩) (he : exec i s = .next t) :
    t.gate = x := by
  obtain ⟨u, hu, hout, -, hbits, -, -⟩ := h.exec_store hp
  obtain rfl : u = t := Host.Outcome.next.inj (hu.symm.trans he)
  rw [State.gate, hout.cfg]
  exact (hbits s.cfg.gateBit).trans (if_pos rfl)

/-- The whole operation, not preempted: the latched byte is the one the slot still holds. -/
theorem SetsGate.unpreempted (h : SetsGate i x f) (hp : s.top.phase = Phase.start) :
    ∃ t, unpreempted 2 i s = .next t ∧ SameOutside s t ∧ t.gate = x ∧
      (∀ k : Fin 8, k ≠ s.cfg.gateBit → (t.slot s.cfg.flagsLo).getLsbD k = (s.slot s.cfg.flagsLo).getLsbD k) ∧
      (∀ b, b ≠ s.cfg.flagsLo → t.slot b = s.slot b) ∧ t.ie = s.ie ∧
      t.top = { s.top with t := s.slot s.cfg.flagsLo, cpc := s.top.cpc + 1 } := by
  obtain ⟨t, ht, hout, hts, htie, htt⟩ := h.exec_latch hp
  have hpt : t.top.phase = ⟨0, 1⟩ := by rw [htt]
  obtain ⟨u, hu, hout', hus, hbits, huie, hut⟩ := h.exec_store hpt
  rw [hout.cfg] at hus hbits
  refine ⟨u, by simp only [Machine.unpreempted, ht, hu], hout.trans hout', h.gate_of_exec_store hpt hu, fun k hk => ?_,
    fun b hb => ?_, ?_, ?_⟩
  · rw [hbits, if_neg hk, htt]
  · rw [hus b hb, hts]
  · rw [huie, htie]
  · rw [hut, htt, ← hp]

end

/-- Settles O21, from the two micro-steps of an operation that sets the gate. -/
theorem wenMicroSteps : Obligations.WenMicroSteps :=
  ⟨by decide, fun _ => ⟨setsGate_wen.exec_latch, setsGate_wen.exec_store⟩⟩

/-- Settles O22, from the two micro-steps of an operation that sets the gate. -/
theorem wdsMicroSteps : Obligations.WdsMicroSteps :=
  ⟨by decide, fun _ => ⟨setsGate_wds.exec_latch, setsGate_wds.exec_store⟩⟩

/-- Settles O23: the two micro-steps one after the other, for WEN and for WDS. -/
theorem gateOpensAndCloses : Obligations.GateOpensAndCloses := fun _ hp =>
  ⟨setsGate_wen.unpreempted hp, setsGate_wds.unpreempted hp⟩

/-! ### BWR (rules R143, R145, R148) -/

section
variable {s t : State} {a : Addr} {v : Byte}

theorem busWritePermitted_readOnly (h : region s.cfg a = .readOnly) : busWritePermitted s a = false := by
  simp [busWritePermitted, h]

theorem busWritePermitted_readWrite (h : region s.cfg a = .readWrite) : busWritePermitted s a = true := by
  simp [busWritePermitted, h]

theorem busWritePermitted_safeReadWrite (h : region s.cfg a = .safeReadWrite) : busWritePermitted s a = s.gate := by
  simp [busWritePermitted, h]

/-- Between operations BWR always ends, the write applied or dropped, and no register but the command index changes. -/
theorem exec_bwr_start (a : Addr) (v : Byte) (hp : s.top.phase = Phase.start) :
    ∃ t, exec (.bwr a v) s = .next t ∧ t.ie = s.ie ∧
      t.top = { s.top with cpc := s.top.cpc + 1, phase := Phase.start } := by
  refine ⟨_, exec_of_tableOf_singleton (i := .bwr a v)
    (row := fun s => if busWritePermitted s a then s.writeSlot a v else s) nofun nofun hp rfl, ?_, ?_⟩
  · split <;> simp
  · split <;> simp

/-- BWR writes no slot but its own. -/
theorem exec_bwr_other {b : Addr} (h : exec (.bwr a v) s = .next t) (hb : b ≠ a) : t.slot b = s.slot b := by
  refine operationsWriteOnlyTheirSlots _ s t b h ?_
  simp only [writtenSlots]
  split <;> simp [hb]

/-- A denied write leaves the whole bank as it was. -/
theorem exec_bwr_denied (h : exec (.bwr a v) s = .next t) (hd : busWritePermitted s a = false) (b : Addr) :
    t.slot b = s.slot b := by
  by_cases hb : b = a
  · rw [hb, exec_bwr_slot h, hd]; rfl
  · exact exec_bwr_other h hb

/-- A permitted write is stored. -/
theorem exec_bwr_permitted (h : exec (.bwr a v) s = .next t) (hd : busWritePermitted s a = true) : t.slot a = v := by
  rw [exec_bwr_slot h, hd]; rfl

theorem exec_bwr_safeReadWrite (h : exec (.bwr a v) s = .next t) (hr : region s.cfg a = .safeReadWrite) :
    t.slot a = if (s.slot s.cfg.flagsLo).getLsbD s.cfg.gateBit then v else s.slot a := by
  rw [exec_bwr_slot h, busWritePermitted_safeReadWrite hr]; rfl

end

/-- Settles O24: whether the write is applied is bus_write_permitted, region by region, and a region at the stated bounds is a
range of addresses. -/
theorem bwrObeysTheContract : Obligations.BwrObeysTheContract := by
  refine ⟨formatAV_toNat 0x5, fun a v s hp => ?_⟩
  obtain ⟨t, he, hie, htop⟩ := exec_bwr_start a v hp
  have hro : region s.cfg a = .readOnly → t.slot a = s.slot a := fun hr =>
    exec_bwr_denied he (busWritePermitted_readOnly hr) a
  have hrw : region s.cfg a = .readWrite → t.slot a = v := fun hr =>
    exec_bwr_permitted he (busWritePermitted_readWrite hr)
  have hsrw := exec_bwr_safeReadWrite he
  refine ⟨t, he, (exec_next_frame he).1, hro, hrw, hsrw, fun hb => ?_, fun b => exec_bwr_other he, hie, htop⟩
  obtain ⟨hlo, hmid, hhi, -⟩ := (regionOfEveryAddress s.cfg a).1 hb
  exact ⟨hro ∘ hlo, hrw ∘ hmid, hsrw ∘ hhi⟩

/-- Settles O25: the gate that WDS or WEN leaves is read again by BWR; the other regions do not ask for it; and INIT zeroes the
byte that WEQ reads. -/
theorem policyProperties : Obligations.PolicyProperties := by
  refine ⟨fun a v s t u r hb hp ha hcfg hslot hr => ?_, fun a v s t hb he => ?_, fun s t r hi hw => ?_⟩
  · have hpermit : busWritePermitted u a = u.gate :=
      busWritePermitted_safeReadWrite (hcfg ▸ ((regionOfEveryAddress s.cfg a).1 hb).2.2.1 ha)
    have hgate : ∀ {i}, exec i s = .next t → u.gate = t.gate := fun he => by
      have htcfg := (exec_next_frame he).1.cfg
      exact gate_congr (hcfg.trans htcfg.symm) (htcfg ▸ hslot)
    refine ⟨fun he => exec_bwr_denied hr ?_, fun he => exec_bwr_permitted hr ?_⟩
    · rw [hpermit, hgate he, setsGate_wds.gate_of_exec_store hp he]
    · rw [hpermit, hgate he, setsGate_wen.gate_of_exec_store hp he]
  · obtain ⟨hlo, hmid, -⟩ := (regionOfEveryAddress s.cfg a).1 hb
    exact ⟨fun ha => exec_bwr_denied he (busWritePermitted_readOnly (hlo ha)),
      fun ha => exec_bwr_permitted he (busWritePermitted_readWrite (hmid ha))⟩
  · obtain ⟨o, rfl⟩ := exec_next_of_tableOf_singleton hi rfl
    rw [exec_weq_res hw, gate_advance, gate_zeroBank]
    rfl

/-! ### Who can write the low flags byte (rule R146) -/

/-- The operations that have the low flags byte among their slots: in a well-formed configuration BWR is not one, since the
byte is in the Read-Only region. -/
theorem flagsByte_writer {c : Config} {i : Instr} (hc : c.wf = true) (h : c.flagsLo ∈ writtenSlots c i) :
    i = .wen ∨ i = .wds ∨ i = .init ∨ i = .ldef ∨ (∃ v, i = .wrb c.flagsLo v) ∨
      (∃ al w, i = .wrw c.flagsLo al w) ∨ (∃ ah w, i = .wrw ah c.flagsLo w) := by
  cases i with
  | bwr a v =>
    simp only [writtenSlots] at h
    split at h
    · cases h
    · next hro =>
      obtain rfl := List.mem_singleton.1 h
      exact absurd (Config.wf_flagsReadOnly hc) hro
  | wrb a v =>
    obtain rfl := List.mem_singleton.1 h
    simp
  | wrw ah al w => obtain rfl | rfl := List.mem_pair.1 h <;> simp
  | wen | wds | init | ldef => simp
  | rdb | rdw | weq | ien | ids => cases h

/-- Settles O26: an operation keeps every slot it does not name, and these are the ones that name the low flags byte. -/
theorem flagsByteWriters : Obligations.FlagsByteWriters := by
  intro i s t hc he
  by_cases hm : s.cfg.flagsLo ∈ writtenSlots s.cfg i
  · exact .inr (flagsByte_writer hc hm)
  · exact .inl (operationsWriteOnlyTheirSlots i s t _ he hm)

/-! ### A locked gate in a run (rules R146, R163)

Of the operations left by rule R146, premise (i), only a Bits entry of LDEF stores a gate bit that it does not bring itself: its
second row stores back the gate bit that its first row has latched, perhaps long before. So the invariant has a part for
every context that stands between those two rows. -/

/-- If the context stands at the second row of a Bits entry of the low flags byte, its latched byte has the gate bit clear. -/
def Context.LatchedLocked (cfg : Config) (c : Context) : Prop :=
  c.op = some .ldef → c.phase.sub = 1 → (∃ m v, cfg.defaults[c.phase.entry]? = some (.bits cfg.flagsLo m v)) →
    testBit c.t cfg.gateBit = false

/-- The gate is locked, and no context has latched a low flags byte in which it was open, to store it back. -/
structure GateLocked (s : State) : Prop where
  locked : s.gate = false
  latched : ∀ c ∈ s.stack, c.LatchedLocked s.cfg

section
variable {i : Instr} {k : Nat} {e : DefaultEntry} {s t : State} {row : State → State}

/-- A context between operations has latched nothing. -/
theorem Context.latchedLocked_start {cfg : Config} {c : Context} (h : c.phase = Phase.start) : c.LatchedLocked cfg := by
  intro _ hsub _
  simp [h, Phase.start] at hsub

/-- A row of a raw write that does not set the gate bit keeps the gate locked. -/
theorem wordWriteRows_gate_locked {ah al : Addr} {w : Word} (hg : s.gate = false)
    (hk : cannotUnlock s.cfg (.wrw ah al w)) (hr : row ∈ wordWriteRows ah al w) : (row s).gate = false := by
  obtain ⟨hhi, hlo⟩ := hk
  simp only [wordWriteRows, List.mem_cons, List.not_mem_nil, or_false] at hr
  rcases hr with rfl | rfl | rfl | rfl
  · simpa using hg
  · exact gate_writeSlot_locked hg hhi
  · exact gate_writeSlot_locked hg hlo
  · simpa using hg

/-- So does a row of any operation but LDEF that meets the premise of rule R146. -/
theorem tableOf_gate_locked (hc : s.cfg.wf = true) (hg : s.gate = false) (hk : cannotUnlock s.cfg i)
    (hr : row ∈ tableOf s.cfg i) : (row s).gate = false := by
  by_cases hm : s.cfg.flagsLo ∈ writtenSlots s.cfg i
  · rcases flagsByte_writer hc hm with rfl | rfl | rfl | rfl | ⟨v, rfl⟩ | ⟨al, w, rfl⟩ | ⟨ah, w, rfl⟩
    · exact hk.elim
    · obtain rfl | rfl := List.mem_pair.1 hr
      · simpa using hg
      · exact gate_writeSlot_locked hg fun _ => by simp [testBit_clearBit]
    · obtain rfl := List.mem_singleton.1 hr
      exact gate_zeroBank s
    · cases hr
    · obtain rfl := List.mem_singleton.1 hr
      exact gate_writeSlot_locked hg hk
    · exact wordWriteRows_gate_locked hg hk hr
    · exact wordWriteRows_gate_locked hg hk hr
  · rw [gate_congr (tableOf_sameOutside hr s).cfg (tableOf_slot hr hm), hg]

@[simp] theorem testBit_allOnes (g : Fin 8) : testBit 0xFF#8 g = true := by revert g; decide

/-- No entry of a well-formed DEFAULTS covers the gate (rule R163 (b)). -/
theorem entryCover_gate {c : Config} (hc : c.wf = true) (he : e ∈ c.defaults) :
    testBit (entryCover e c.flagsLo) c.gateBit = false := by
  have h := Config.wf_gate_not_covered hc
  rw [testBit_cover, List.any_eq_false] at h
  exact Bool.eq_false_iff.2 (h e he)

/-- So an entry that names the low flags byte is a Bits entry whose mask leaves the gate out. -/
theorem entry_flagsByte {c : Config} (hc : c.wf = true) (he : e ∈ c.defaults) (hm : c.flagsLo ∈ entrySlots e) :
    ∃ m v, e = .bits c.flagsLo m v ∧ testBit m c.gateBit = false := by
  have hcover := entryCover_gate hc he
  cases e with
  | byte a v =>
    obtain rfl := List.mem_singleton.1 hm
    simp [entryCover] at hcover
  | word ah al w => simp [entryCover, List.mem_pair.1 hm] at hcover
  | bits a m v =>
    obtain rfl := List.mem_singleton.1 hm
    exact ⟨m, v, rfl, by simpa [entryCover] using hcover⟩

/-- A row of LDEF keeps the gate locked. -/
theorem entryRows_gate_locked (hc : s.cfg.wf = true) (ho : s.top.op = some .ldef) (h : GateLocked s)
    (he : s.cfg.defaults[s.top.phase.entry]? = some e) (hr : (entryRows e)[s.top.phase.sub]? = some row) :
    (row s).gate = false := by
  have hmem := List.mem_of_getElem? hr
  by_cases hm : s.cfg.flagsLo ∈ entrySlots e
  · obtain ⟨m, v, rfl, hmask⟩ := entry_flagsByte hc (List.mem_of_getElem? he) hm
    match hsub : s.top.phase.sub, hr with
    | 0, hr => cases hr; simpa using h.locked
    | 1, hr =>
      cases hr
      have ht : testBit s.top.t s.cfg.gateBit = false := h.latched _ s.top_mem_stack ho hsub ⟨m, v, he⟩
      exact gate_writeSlot_locked h.locked fun _ => by simp [testBit_mergeMasked, hmask, ht]
  · rw [gate_congr (entryRows_sameOutside hmem s).cfg (entryRows_slot hmem hm s), h.locked]

/-- A micro-step to the second row of a Bits entry has latched the slot as it is, with the gate locked. -/
theorem latchedLocked_exec (ho : s.top.op = some i) (hg : s.gate = false) (he : exec i s = .next t) :
    t.top.LatchedLocked s.cfg := by
  rintro hop hsub ⟨m, v, hd⟩
  obtain ⟨hi, hentry, hzero⟩ := exec_next_sub_succ he ho hsub
  obtain rfl : i = .ldef := Option.some.inj (hi.symm.trans hop)
  obtain ⟨-, row, hr, rfl⟩ := exec_next_row he
  rw [hentry] at hd
  rw [phaseRows_entry hd, hzero] at hr
  cases hr
  simpa [State.gate] using hg

/-- A micro-step of an operation that meets the premise of rule R146 keeps the gate locked. -/
theorem gateLocked_exec (hc : s.cfg.wf = true) (ho : s.top.op = some i) (hk : cannotUnlock s.cfg i) (h : GateLocked s)
    (he : exec i s = .next t) : GateLocked t := by
  obtain ⟨hout, -, -⟩ := exec_next_frame he
  refine ⟨?_, fun c hcs => ?_⟩
  · rcases exec_next he with ⟨-, -, k, row, -, hr, rfl⟩ | ⟨-, -, -, rfl⟩ | ⟨rfl, e, row, hd, hr, rfl⟩
    · rw [gate_advance]
      exact tableOf_gate_locked hc h.locked hk (List.mem_of_getElem? hr)
    · simpa using h.locked
    · rw [gate_advance]
      exact entryRows_gate_locked hc ho h hd hr
  · rw [State.stack_eq, hout.below, List.mem_append, List.mem_singleton] at hcs
    rw [hout.cfg]
    rcases hcs with hcs | rfl
    · exact h.latched c (s.stack_eq ▸ List.mem_append_left _ hcs)
    · exact latchedLocked_exec ho h.locked he

/-- So does every move: a delivery starts a context that has latched nothing, and a return only drops one. -/
theorem gateLocked_moves (hc : s.cfg.wf = true) (hk : s.everyOp (cannotUnlock s.cfg)) (h : GateLocked s) (hm : Moves s t) :
    GateLocked t := by
  rcases moves_cases hm with ⟨i, ho, he⟩ | ⟨k, -, -, rfl⟩ | ⟨hne, rfl⟩
  · exact gateLocked_exec hc ho (State.everyOp_top hk ho) h he
  · refine ⟨h.locked, fun c hcs => ?_⟩
    rw [takeInterrupt_stack, List.mem_append, List.mem_singleton] at hcs
    rcases hcs with hcs | rfl
    · exact h.latched c hcs
    · exact Context.latchedLocked_start rfl
  · refine ⟨h.locked, fun c hcs => h.latched c ?_⟩
    rw [returnFromHandler_stack s hne] at hcs
    exact List.dropLast_subset _ hcs

/-- And so it stays locked along a run, whose streams are those of its start. -/
theorem gateLocked_reaches (hc : s.cfg.wf = true) (hk : s.everyOp (cannotUnlock s.cfg)) (h : GateLocked s)
    (hr : Reaches s t) : GateLocked t := by
  induction hr with
  | start => exact h
  | move hr hm ih =>
    obtain ⟨hcfg, -, hsub⟩ := reaches_streams hr
    exact gateLocked_moves (hcfg ▸ hc) (hcfg ▸ fun st hst => hk st (hsub hst)) ih hm

end

/-- Settles O27: between operations no context has latched anything, and from there every move keeps the gate locked. -/
theorem lockedGateOpensOnlyByWen : Obligations.LockedGateOpensOnlyByWen := by
  intro s t hinv hstart hgate hk hr
  have h : GateLocked s := ⟨hgate, fun c hc => Context.latchedLocked_start (hstart c hc)⟩
  exact (gateLocked_reaches hinv.config hk h hr).locked

end Sys2Proof.Machine

/-! ## Lifecycle (43_lifecycle.md): INIT, the micro-steps of LDEF, cover and dval of DEFAULTS, and LDEF as a whole -/

namespace Sys2Proof.Machine

/-! ### INIT (rule R160) -/

theorem exec_init_start {s : State} (hie : s.ie = false) (hp : s.top.phase = Phase.start) :
    exec .init s = .next s.zeroBank.finishOp :=
  exec_of_tableOf_singleton (i := .init) (row := State.zeroBank) nofun (fun _ => hie) hp rfl

/-- Settles O28: the one row of INIT zeroes the bank, the low flags byte with it, and then the operation ends. -/
theorem initZeroesTheBank : Obligations.InitZeroesTheBank := by
  refine ⟨by decide, fun s => ⟨exec_init_masked, fun hie hp => ⟨_, exec_init_start hie hp, ?_, fun b => ?_, ?_, ?_, ?_⟩⟩⟩
  · exact (exec_next_frame (exec_init_start hie hp)).1
  · simp
  · simp
  · simp [hie]
  · simp

/-! ### The micro-steps of LDEF (rule R161) -/

/-- The running context after a micro-step (n, j) of entry e: at the entry's next row, at the next entry, or past the
operation. -/
def entryNext (ds : List DefaultEntry) (e : DefaultEntry) (n j : Nat) (c : Context) : Context :=
  if j + 1 < entrySteps e then { c with phase := ⟨n, j + 1⟩ }
  else if n + 1 < ds.length then { c with phase := ⟨n + 1, 0⟩ }
  else { c with cpc := c.cpc + 1, phase := Phase.start }

section
variable {s : State} {e : DefaultEntry} {n j : Nat} {row : State → State}

theorem advance_ldefNext_top (ds : List DefaultEntry) (e : DefaultEntry) (n j : Nat) (s : State) :
    (advance (ldefNext ds e ⟨n, j⟩) s).top = entryNext ds e n j s.top := by
  simp only [ldefNext, entryNext, entryRows_length]
  split
  · simp [advance]
  · split <;> simp [advance]

/-- A micro-step of LDEF has the effect of the row of its entry, and moves the phase on. -/
theorem exec_entryRow (he : s.cfg.defaults[n]? = some e) (hp : s.top.phase = ⟨n, j⟩)
    (hr : (entryRows e)[j]? = some row) :
    ∃ t, exec .ldef s = .next t ∧ SameOutside s t ∧ (∀ b, t.slot b = (row s).slot b) ∧ t.ie = (row s).ie ∧
      t.top = entryNext s.cfg.defaults e n j (row s).top := by
  have hexec := runDefaults_at (s := s) (by rw [hp]; exact he) (by rw [hp]; exact hr)
  rw [← exec_ldef, hp] at hexec
  exact ⟨_, hexec, (exec_next_frame hexec).1, by simp, by simp, advance_ldefNext_top _ _ _ _ _⟩

end

/-- Settles O29: each micro-step has the effect of its row, and the rows of an entry are those of its kind. -/
theorem ldefMicroSteps : Obligations.LdefMicroSteps := by
  refine ⟨by decide, fun s e n j => ⟨fun hd hp => ?_, fun he hp => ⟨?_, ?_, ?_⟩⟩⟩
  · have hexec : exec .ldef s = .next s.finishOp := runDefaults_nil hd hp
    exact ⟨_, hexec, (exec_next_frame hexec).1, by simp, by simp, by simp [← hp]⟩
  · rintro a v rfl rfl
    obtain ⟨t, hexec, hout, hslot, hie, htop⟩ := exec_entryRow he hp rfl
    exact ⟨t, hexec, hout, by simp [hslot], fun b hb => by simp [hslot, hb], hie, htop⟩
  · rintro ah al w rfl
    refine ⟨?_, ?_, ?_, ?_⟩
    · rintro rfl
      obtain ⟨t, hexec, hout, hslot, hie, htop⟩ := exec_entryRow he hp rfl
      exact ⟨t, hexec, hout, by simp [hslot], hie, htop.trans (congrArg _ (by simp))⟩
    · rintro rfl
      obtain ⟨t, hexec, hout, hslot, hie, htop⟩ := exec_entryRow he hp rfl
      exact ⟨t, hexec, hout, by simp [hslot, hiByte_eq_ofNat], fun b hb => by simp [hslot, hb], hie, htop⟩
    · rintro rfl
      obtain ⟨t, hexec, hout, hslot, hie, htop⟩ := exec_entryRow he hp rfl
      exact ⟨t, hexec, hout, by simp [hslot, loByte_eq_ofNat], fun b hb => by simp [hslot, hb], hie, htop⟩
    · rintro rfl
      obtain ⟨t, hexec, hout, hslot, hie, htop⟩ := exec_entryRow he hp rfl
      exact ⟨t, hexec, hout, hslot, hie, htop⟩
  · rintro a m v rfl
    refine ⟨?_, ?_⟩
    · rintro rfl
      obtain ⟨t, hexec, hout, hslot, hie, htop⟩ := exec_entryRow he hp rfl
      exact ⟨t, hexec, hout, by simp [hslot], hie.trans (by simp), htop.trans (congrArg _ (by simp))⟩
    · rintro rfl
      obtain ⟨t, hexec, hout, hslot, hie, htop⟩ := exec_entryRow he hp rfl
      refine ⟨t, hexec, hout, fun k => ?_, fun b hb => by simp [hslot, hb], hie, htop⟩
      rw [hslot, State.writeSlot_slot, if_pos rfl]
      exact testBit_mergeMasked s.top.t m v k

/-! ### cover and dval of DEFAULTS (rule R162) -/

section
variable {e : DefaultEntry} {a : Addr} {k : Fin 8}

theorem testBit_loByte (w : Word) (k : Fin 8) : testBit (loByte w) k = w.getLsbD k := by
  simp [testBit, loByte]

theorem testBit_hiByte (w : Word) (k : Fin 8) : testBit (hiByte w) k = w.getLsbD (8 + k) := by
  simp [testBit, hiByte]

theorem testBit_or (b c : Byte) (k : Fin 8) : testBit (b ||| c) k = (testBit b k || testBit c k) := BitVec.getLsbD_or

theorem testBit_and (b c : Byte) (k : Fin 8) : testBit (b &&& c) k = (testBit b k && testBit c k) := BitVec.getLsbD_and

/-- Where the mask has the bit, a merge has the value's. -/
theorem testBit_mergeMasked_of_mem {b m v : Byte} (h : testBit m k = true) : testBit (mergeMasked b m v) k = testBit v k := by
  rw [testBit_mergeMasked, if_pos h]

/-- Where the mask has not the bit, a merge has the old one. -/
theorem testBit_mergeMasked_of_not_mem {b m v : Byte} (h : testBit m k = false) :
    testBit (mergeMasked b m v) k = testBit b k := by
  rw [testBit_mergeMasked, h]; rfl

@[simp] theorem mergeMasked_allOnes (b v : Byte) : mergeMasked b 255#8 v = v :=
  eq_of_testBit_eq fun k => testBit_mergeMasked_of_mem (testBit_allOnes k)

@[simp] theorem mergeMasked_zero (b v : Byte) : mergeMasked b 0#8 v = b :=
  eq_of_testBit_eq fun k => testBit_mergeMasked_of_not_mem (testBit_zero k)

/-- Two merges are one: under both masks, with the second value over the first. -/
theorem mergeMasked_mergeMasked (b m v m' v' : Byte) :
    mergeMasked (mergeMasked b m v) m' v' = mergeMasked b (m ||| m') (mergeMasked v m' v') := by
  refine eq_of_testBit_eq fun k => ?_
  simp only [testBit_mergeMasked, testBit_or]
  cases testBit m k <;> cases testBit m' k <;> rfl

theorem cover_concat (ds : List DefaultEntry) (e : DefaultEntry) (a : Addr) :
    cover (ds ++ [e]) a = cover ds a ||| entryCover e a := by
  simp [cover]

theorem dval_concat (ds : List DefaultEntry) (e : DefaultEntry) (a : Addr) :
    dval (ds ++ [e]) a = mergeMasked (dval ds a) (entryCover e a) (entryValue e a) := by
  simp [dval]

/-- Merging the entries one after the other into a byte is merging dval under cover. -/
theorem foldl_mergeMasked (ds : List DefaultEntry) (a : Addr) (b : Byte) :
    ds.foldl (fun acc e => mergeMasked acc (entryCover e a) (entryValue e a)) b =
      mergeMasked b (cover ds a) (dval ds a) := by
  induction ds using List.reverseRecOn with
  | nil => simp [cover]
  | append_singleton ds e ih => rw [List.foldl_concat, ih, mergeMasked_mergeMasked, cover_concat, dval_concat]

/-- Which bits of a slot an entry covers. -/
theorem testBit_entryCover_iff :
    testBit (entryCover e a) k = true ↔
      (∃ v, e = .byte a v) ∨ (∃ al w, e = .word a al w) ∨ (∃ ah w, e = .word ah a w) ∨
        (∃ m v, e = .bits a m v ∧ m.getLsbD k = true) := by
  cases e with
  | byte b v => by_cases h : a = b <;> simp [entryCover, h, eq_comm (a := b)]
  | word ah al w => by_cases h : a = ah ∨ a = al <;> simp [entryCover, h, eq_comm (a := ah), eq_comm (a := al)]
  | bits b m v => by_cases h : a = b <;> simp [entryCover, h, eq_comm (a := b), testBit]

/-- A bit of dval is that of the last entry that covers it. -/
theorem testBit_dval_of_last {pre post : List DefaultEntry} (he : testBit (entryCover e a) k = true)
    (hpost : ∀ d ∈ post, ¬testBit (entryCover d a) k = true) :
    testBit (dval (pre ++ e :: post) a) k = testBit (entryValue e a) k := by
  have huncovered : testBit (cover post a) k = false := by
    rw [testBit_cover, List.any_eq_false]; exact hpost
  calc testBit (dval (pre ++ e :: post) a) k
    _ = testBit (mergeMasked (dval (pre ++ [e]) a) (cover post a) (dval post a)) k := by
      rw [← foldl_mergeMasked]; simp [dval]
    _ = testBit (dval (pre ++ [e]) a) k := testBit_mergeMasked_of_not_mem huncovered
    _ = testBit (entryValue e a) k := by rw [dval_concat, testBit_mergeMasked_of_mem he]

end

/-- Settles O30: a bit is covered by the entries that have it in their mask, and dval has it from the last of them. -/
theorem coverAndValueOfDefaults : Obligations.CoverAndValueOfDefaults := by
  intro ds a k covers
  have hcovers : ∀ e, testBit (entryCover e a) k = true ↔ covers e := fun e => testBit_entryCover_iff
  refine ⟨?_, fun pre e post hds he hpost => ?_⟩
  · simp only [← hcovers]
    exact (Bool.eq_iff_iff.1 (testBit_cover ds a k)).trans List.any_eq_true
  · have hlast : testBit (dval ds a) k = testBit (entryValue e a) k :=
      hds ▸ testBit_dval_of_last ((hcovers e).2 he) (fun d hd => mt (hcovers d).1 (hpost d hd))
    refine ⟨?_, ?_, ?_, ?_⟩
    · rintro v rfl; exact hlast
    · rintro ah w rfl; exact hlast.trans (by simp [entryValue, testBit_loByte])
    · rintro al w rfl hne; exact hlast.trans (by simp [entryValue, hne.symm, testBit_hiByte])
    · rintro m v rfl; exact hlast

/-! ### LDEF as a whole, not preempted: the rows of the entries, one after the other (rule R161) -/

/-- The rows performed one after the other. -/
def runRows (rows : List (State → State)) (s : State) : State := rows.foldl (fun s row => row s) s

@[simp] theorem runRows_nil (s : State) : runRows [] s = s := rfl

@[simp] theorem runRows_cons (row : State → State) (rows : List (State → State)) (s : State) :
    runRows (row :: rows) s = runRows rows (row s) := rfl

theorem runRows_append (rows rows' : List (State → State)) (s : State) :
    runRows (rows ++ rows') s = runRows rows' (runRows rows s) := List.foldl_append

/-- The rows of LDEF from a phase to its end. -/
def rowsLeft (c : Config) (p : Phase) : List (State → State) :=
  (phaseRows c .ldef p.entry).drop p.sub ++ (c.defaults.drop (p.entry + 1)).flatMap entryRows

section
variable {c : Config} {p q : Phase} {s t : State} {row : State → State} {rows : List (State → State)}
  {e : DefaultEntry}

theorem length_rowsLeft (c : Config) (p : Phase) : (rowsLeft c p).length = stepsLeft c .ldef p := by
  simp [rowsLeft, stepsLeft, List.length_flatMap]

/-- The rows left from the start are the rows of all entries; the row of the empty list does nothing. -/
theorem runRows_rowsLeft_start (c : Config) (s : State) :
    runRows (rowsLeft c Phase.start) s = runRows (c.defaults.flatMap entryRows) s := by
  cases hd : c.defaults <;> simp [rowsLeft, phaseRows, Phase.start, hd]

/-- A micro-step that does not end the operation performs the first of the rows left. -/
theorem rowsLeft_nextPhase (hr : (phaseRows c .ldef p.entry)[p.sub]? = some row) (h : nextPhase c .ldef p = some q) :
    rowsLeft c p = row :: rowsLeft c q := by
  obtain ⟨hlt, rfl⟩ := List.getElem?_eq_some_iff.1 hr
  rcases nextPhase_some h with ⟨-, rfl⟩ | ⟨hk, -, rfl, e, he⟩
  · simp only [rowsLeft, List.drop_eq_getElem_cons hlt, List.cons_append]
  · obtain ⟨hlt', rfl⟩ := List.getElem?_eq_some_iff.1 he
    simp only [rowsLeft, List.drop_eq_getElem_cons hlt, List.drop_eq_nil_of_le hk, List.drop_eq_getElem_cons hlt',
      phaseRows_entry he, List.drop_zero, List.flatMap_cons, List.cons_append, List.nil_append]

/-- The micro-step that ends the operation performs the last of the rows left. -/
theorem rowsLeft_last (hr : (phaseRows c .ldef p.entry)[p.sub]? = some row) (h : nextPhase c .ldef p = none) :
    rowsLeft c p = [row] := by
  obtain ⟨hlt, rfl⟩ := List.getElem?_eq_some_iff.1 hr
  obtain ⟨hk, hn⟩ := nextPhase_none h
  simp [rowsLeft, List.drop_eq_getElem_cons hlt, List.drop_eq_nil_of_le hk, List.drop_eq_nil_of_le (hn rfl)]

/-- The row neither reads nor writes the phase. -/
def PhaseBlind (row : State → State) : Prop := ∀ s p, row (s.setPhase p) = (row s).setPhase p

theorem entryRows_phaseBlind (h : row ∈ entryRows e) : PhaseBlind row := by
  intro s p
  cases e with
  | byte a v => obtain rfl := List.mem_singleton.1 h; simp
  | word ah al w =>
    simp only [entryRows, wordWriteRows, List.mem_cons, List.not_mem_nil, or_false] at h
    rcases h with rfl | rfl | rfl | rfl <;> simp
  | bits a m v => obtain rfl | rfl := List.mem_pair.1 h <;> simp

theorem rowsLeft_phaseBlind (h : row ∈ rowsLeft c p) : PhaseBlind row := by
  rcases List.mem_append.1 h with h | h
  · rcases phaseRows_cases (List.mem_of_mem_drop h) with ⟨hl, -⟩ | ⟨-, e, -, h⟩ | ⟨-, rfl⟩
    · exact absurd rfl hl
    · exact entryRows_phaseBlind h
    · exact fun _ _ => rfl
  · obtain ⟨e, -, h⟩ := List.mem_flatMap.1 h
    exact entryRows_phaseBlind h

/-- Where the end of the operation comes after them, the phase they start from leaves no trace. -/
theorem finishOp_runRows_setPhase (hrows : ∀ row ∈ rows, PhaseBlind row) (s : State) (p : Phase) :
    (runRows rows (s.setPhase p)).finishOp = (runRows rows s).finishOp := by
  induction rows generalizing s with
  | nil => simp
  | cons row rows ih =>
    rw [runRows_cons, runRows_cons, hrows row List.mem_cons_self, ih fun r hr => hrows r (List.mem_cons_of_mem _ hr)]

/-- From any legal phase, LDEF not preempted performs the rows left and ends. -/
theorem unpreempted_rowsLeft (hrows : rowsLeft s.cfg s.top.phase = rows)
    (hp : legalPhase s.cfg .ldef s.top.phase = true) :
    unpreempted rows.length .ldef s = .next (runRows rows s).finishOp := by
  induction rows generalizing s with
  | nil =>
    have hlt := legalPhase_iff.1 hp
    rw [rowsLeft, List.append_eq_nil_iff, List.drop_eq_nil_iff] at hrows
    exact absurd hrows.1 (Nat.not_le_of_lt hlt)
  | cons row rows ih =>
    obtain ⟨row', hr, hexec⟩ := exec_legal (i := .ldef) nofun hp
    cases hnext : nextPhase s.cfg .ldef s.top.phase with
    | none =>
      rw [rowsLeft_last hr hnext] at hrows
      cases hrows
      simp [unpreempted, hexec, hnext, advance]
    | some q =>
      rw [rowsLeft_nextPhase hr hnext] at hrows
      cases hrows
      have hcfg : ((row s).setPhase q).cfg = s.cfg := by
        simpa using (phaseRows_sameOutside (List.mem_of_getElem? hr) s).cfg
      have hphase : ((row s).setPhase q).top.phase = q := by simp
      have hrest := ih (s := (row s).setPhase q) (by rw [hcfg, hphase])
        (by rw [hcfg, hphase]; exact legalPhase_nextPhase hnext)
      rw [finishOp_runRows_setPhase fun _ => rowsLeft_phaseBlind] at hrest
      simp only [List.length_cons, unpreempted, hexec, hnext, advance, hrest, runRows_cons]

/-- Not preempted, LDEF performs the rows of DEFAULTS one after the other and ends. -/
theorem unpreempted_ldef (hp : s.top.phase = Phase.start) :
    unpreempted (ldefSteps s.cfg.defaults) .ldef s =
      .next (runRows (s.cfg.defaults.flatMap entryRows) s).finishOp := by
  have hlen : (rowsLeft s.cfg Phase.start).length = ldefSteps s.cfg.defaults :=
    (length_rowsLeft _ _).trans (stepsLeft_start _ _)
  rw [← hlen, ← runRows_rowsLeft_start]
  exact unpreempted_rowsLeft (by rw [hp]) (by rw [hp, legalPhase_start])

/-! ### The effect of the rows (rules R161, R162) -/

/-- The rows of an entry merge its value under its cover into every slot. -/
theorem runRows_entryRows_slot (e : DefaultEntry) (s : State) (a : Addr) :
    (runRows (entryRows e) s).slot a = mergeMasked (s.slot a) (entryCover e a) (entryValue e a) := by
  cases e with
  | byte b v => by_cases h : a = b <;> simp [entryRows, entryCover, entryValue, h]
  | word ah al w =>
    by_cases hl : a = al
    · simp [entryRows, wordWriteRows, entryCover, entryValue, hl]
    · by_cases hh : a = ah <;> simp [entryRows, wordWriteRows, entryCover, entryValue, hl, hh]
  | bits b m v => by_cases h : a = b <;> simp [entryRows, entryCover, entryValue, h]

/-- The rows of DEFAULTS merge dval under cover. -/
theorem runRows_defaults_slot (ds : List DefaultEntry) (s : State) (a : Addr) :
    (runRows (ds.flatMap entryRows) s).slot a = mergeMasked (s.slot a) (cover ds a) (dval ds a) := by
  rw [← foldl_mergeMasked]
  induction ds generalizing s with
  | nil => rfl
  | cons e ds ih => rw [List.flatMap_cons, runRows_append, ih, runRows_entryRows_slot, List.foldl_cons]

theorem runRows_res (hrows : ∀ row ∈ rows, ∀ s, (row s).top.res = s.top.res) (s : State) :
    (runRows rows s).top.res = s.top.res := by
  induction rows generalizing s with
  | nil => rfl
  | cons row rows ih =>
    rw [runRows_cons, ih fun r hr => hrows r (List.mem_cons_of_mem _ hr), hrows row List.mem_cons_self]

theorem runRows_defaults_res (ds : List DefaultEntry) (s : State) :
    (runRows (ds.flatMap entryRows) s).top.res = s.top.res := by
  refine runRows_res (fun row hr s => ?_) s
  obtain ⟨e, -, hr⟩ := List.mem_flatMap.1 hr
  exact entryRows_res hr s

/-- What LDEF, not preempted, leaves in the bank. -/
theorem unpreempted_ldef_slot (hp : s.top.phase = Phase.start)
    (h : unpreempted (ldefSteps s.cfg.defaults) .ldef s = .next t) (a : Addr) :
    t.slot a = mergeMasked (s.slot a) (cover s.cfg.defaults a) (dval s.cfg.defaults a) := by
  rw [unpreempted_ldef hp] at h
  cases h
  rw [State.finishOp_eq, State.setTop_slot, runRows_defaults_slot]

/-- What it leaves alone: it completes as every operation does. -/
theorem unpreempted_ldef_frame (hp : s.top.phase = Phase.start)
    (h : unpreempted (ldefSteps s.cfg.defaults) .ldef s = .next t) :
    SameOutside s t ∧ t.top.cpc = s.top.cpc + 1 ∧ t.top.phase = Phase.start ∧ t.ie = s.ie := by
  obtain ⟨u, hu, hout, hcpc, hphase, hie⟩ := wholeOperationsComplete .ldef s hp nofun
  obtain rfl : u = t := Host.Outcome.next.inj (hu.symm.trans h)
  exact ⟨hout, hcpc, hphase, hie nofun nofun⟩

end

/-- Settles O31: the rows of all entries one after the other merge dval under cover into the bank. -/
theorem ldefNetEffect : Obligations.LdefNetEffect := by
  intro s hp
  have h := unpreempted_ldef hp
  obtain ⟨hout, hcpc, hphase, hie⟩ := unpreempted_ldef_frame hp h
  refine ⟨_, h, hout, unpreempted_ldef_slot hp h, hie, ?_, hcpc, hphase⟩
  simp [runRows_defaults_res]

/-! ### Determinism and the gate (rules R163, R164) -/

/-- Under the mask a merge is the value alone. -/
theorem mergeMasked_and_mask (b m v : Byte) : mergeMasked b m v &&& m = v &&& m := by
  refine eq_of_testBit_eq fun k => ?_
  rw [testBit_and, testBit_and, testBit_mergeMasked]
  cases testBit m k <;> simp

/-- Merging the same value again changes nothing. -/
theorem mergeMasked_twice (b m v : Byte) : mergeMasked (mergeMasked b m v) m v = mergeMasked b m v := by
  have hself : mergeMasked v m v = v := eq_of_testBit_eq fun k => by rw [testBit_mergeMasked, ite_self]
  rw [mergeMasked_mergeMasked, BitVec.or_self, hself]

/-- Settles O32: under cover the bank is dval whatever it was, a second merge changes nothing, and the gate is a bit that no
well-formed DEFAULTS covers. -/
theorem ldefIsDeterministic : Obligations.LdefIsDeterministic := by
  refine ⟨fun s1 s2 t1 t2 hcfg hp1 hp2 h1 h2 a => ?_, fun s t u hp ht hu a => ?_, fun c hc => ⟨c.flagsLo, fun h => ?_⟩⟩
  · rw [unpreempted_ldef_slot hp1 h1, unpreempted_ldef_slot hp2 h2, ← hcfg, mergeMasked_and_mask, mergeMasked_and_mask]
    exact ⟨rfl, rfl⟩
  · obtain ⟨hout, -, hphase, -⟩ := unpreempted_ldef_frame hp ht
    rw [← hout.cfg] at hu
    rw [unpreempted_ldef_slot hphase hu, hout.cfg, unpreempted_ldef_slot hp ht, mergeMasked_twice]
  · have hgate := Config.wf_gate_not_covered hc
    rw [h] at hgate
    exact Bool.false_ne_true (hgate.symm.trans (testBit_allOnes c.gateBit))

/-- Settles O33: the gate is a bit that no well-formed DEFAULTS covers, and a merge keeps the bits outside its mask. -/
theorem ldefKeepsTheGate : Obligations.LdefKeepsTheGate := by
  intro s t hc hp h
  obtain ⟨hout, -⟩ := unpreempted_ldef_frame hp h
  rw [State.gate, hout.cfg, unpreempted_ldef_slot hp h]
  exact testBit_mergeMasked_of_not_mem (Config.wf_gate_not_covered hc)

end Sys2Proof.Machine

/-! ## Interrupt Mask (44_interrupt_mask.md): IEN and IDS -/

namespace Sys2Proof.Machine

/-- Between operations, an operation whose one row sets IE leaves it at that value whatever it was, changes nothing else and
ends (rules R180, R181). -/
theorem exec_setIe_start {i : Instr} {s : State} {e : Bool} (hl : i ≠ .ldef) (hi : i = .init → s.ie = false)
    (hp : s.top.phase = Phase.start) (hrow : tableOf s.cfg i = [fun s => s.setIe e]) :
    ∃ t, exec i s = .next t ∧ SameOutside s t ∧ (∀ b, t.slot b = s.slot b) ∧ t.ie = e ∧
      t.top = { s.top with cpc := s.top.cpc + 1, phase := Phase.start } := by
  have hexec : exec i s = .next (s.setIe e).finishOp := exec_of_tableOf_singleton hl hi hp hrow
  refine ⟨_, hexec, (exec_next_frame hexec).1, fun b => ?_, ?_, ?_⟩
  · simp
  · simp
  · simp

/-- Settles O34: the one row of IEN sets IE to 1, and then the operation ends. -/
theorem ienEnablesDelivery : Obligations.IenEnablesDelivery :=
  ⟨by decide, fun _ hp => exec_setIe_start nofun nofun hp rfl⟩

/-- Settles O35: the one row of IDS sets IE to 0, and then the operation ends. -/
theorem idsSuspendsDelivery : Obligations.IdsSuspendsDelivery :=
  ⟨by decide, fun _ hp => exec_setIe_start nofun nofun hp rfl⟩

end Sys2Proof.Machine

/-! ## Interrupts (60_exceptions.md): the moves of the step relation, and how a run ends -/

namespace Sys2Proof.Machine

/-! ### Delivery and return (rules R196, R198) -/

/-- A delivery takes the source's next stream out of its list. -/
theorem takeInterrupt_deliveries {s : State} {k : Nat} {H : Stream} {rest : List Stream} (h : s.remaining k = H :: rest) :
    (takeInterrupt k s).deliveries = s.deliveries.set (k - 1) rest := by
  simp only [takeInterrupt, h, List.tail_cons]

/-- Settles O43, from when a delivery is enabled and the stack it leaves. -/
theorem deliveryOfAnInterrupt : Obligations.DeliveryOfAnInterrupt := by
  intro s k
  refine ⟨by rw [mem_moves_deliver, deliverable_iff], fun H rest hrest hk => ?_⟩
  have hrem : s.remaining k = H :: rest := hrest
  have hds := takeInterrupt_deliveries hrem
  have hlt : k - 1 < s.deliveries.length := by
    by_contra hge
    rw [List.getD_eq_default _ _ (Nat.le_of_not_lt hge)] at hrest
    cases hrest
  refine ⟨takeInterrupt k s, Context.fresh H s.draws, rfl, ?_, rfl, rfl, rfl, rfl, rfl, fun _ => rfl, rfl, rfl,
    ?_, ?_, ?_⟩
  · rw [takeInterrupt_stack, hrem, List.headD_cons]
  · simp [hds, List.getD_eq_getElem?_getD, hlt]
  · rw [hds, List.length_set]
  · intro n hn
    simp [hds, List.getD_eq_getElem?_getD, List.getElem?_set_ne hn.symm]

/-- Settles O44, from when a return is enabled and the stack it leaves. -/
theorem returnFromAHandler : Obligations.ReturnFromAHandler := fun s =>
  ⟨mem_moves_handlerReturn, fun hne => ⟨returnFromHandler s, rfl, returnFromHandler_stack s hne, rfl, List.map_tail,
    fun _ => rfl, rfl, rfl, rfl, rfl⟩⟩

/-! ### A step is an enabled move (rules R194, R195) -/

section
variable {s t : State} {i : Instr} {cw : Command} {m : Move}

theorem Context.op_of_decode {d : Context} (hw : d.word = some cw) (hd : decode cw = .ok i) : d.op = some i := by
  simp [Context.op, hw, hd, Except.toOption]

/-- A context with a word to run has an index in its stream. -/
theorem Context.cpc_lt_of_word {d : Context} (hw : d.word = some cw) : d.cpc < d.stream.length :=
  (List.getElem?_eq_some_iff.1 hw).1

/-- A word that is not refused, and no delivery enabled: only the context can move. -/
theorem moves_of_word (hw : s.top.word = some cw) (hr : s.topRefused = false)
    (hd : ∀ k, 1 ≤ k → k ≤ s.cfg.nirq → s.deliverable k = false) : s.moves = [.context] := by
  have hlt := Context.cpc_lt_of_word hw
  have hctx : s.contextEnabled = true := by simp [State.contextEnabled, Context.hasOperation, hlt, hr]
  have hret : s.returnable = false := by simp [State.returnable, Context.finished, Nat.ne_of_lt hlt]
  rw [moves_undeliverable hd, hctx, hret]
  rfl

end

/-- Settles O6: with no delivery enabled the context's move is the only one, or the word is refused and exec answers that. -/
theorem stepRunsDecodedOperation : Obligations.StepRunsDecodedOperation := by
  intro s cw i hw hd
  have ho := Context.op_of_decode hw hd
  refine ⟨fun s0 hc => ?_, fun hk => ?_⟩
  · exact ⟨step_of_chosen ((chooseMove_frame hc).1 ▸ ho) hc, (chooseMove_some hc).2⟩
  · cases hr : s.topRefused with
    | true => exact (step_of_topRefused hr hw hk).trans (contextStep_op ho)
    | false => exact step_of_chosen ho (chooseMove_single (moves_of_word hw hr hk))

/-- Settles O8: what is chosen is an enabled move, and each kind of move is enabled as its rule says. -/
theorem stepIsAnEnabledMove : Obligations.StepIsAnEnabledMove := by
  intro s t h
  obtain ⟨m, s0, -, hm, hs0, ht⟩ := step_next h
  rw [hs0] at ht
  refine ⟨m, hm, s0.choices, s0.draws, ht, ?_⟩
  cases m with
  | context =>
    obtain ⟨i, ho, he⟩ := contextStep_next ht
    exact .inl ⟨rfl, i, ho, (exec_next_row he).1⟩
  | handlerReturn => exact .inr (.inl ⟨rfl, mem_moves_handlerReturn.1 hm⟩)
  | deliver k =>
    obtain ⟨h1, hn, hk⟩ := mem_moves_deliver.1 hm
    exact .inr (.inr ⟨k, rfl, h1, hn, deliverable_iff.1 hk⟩)

/-! ### Any enabled move may happen (rule R197)

A move does the same whatever decisions of the environment are still to come, so a decision that names it makes the step
take it. -/

/-- The state with the environment's coming decisions replaced. -/
def State.withDecisions (s : State) (cs : List Move) : State := { s with choices := cs }

/-- The change of the state neither reads nor writes the environment's decisions. -/
def DecisionBlind (row : State → State) : Prop := ∀ s cs, row (s.withDecisions cs) = (row s).withDecisions cs

section
variable {s t : State} {i : Instr} {c : Config} {n : Nat} {m : Move} {row : State → State} {cs : List Move}

@[simp] theorem State.withDecisions_moves (s : State) (cs : List Move) : (s.withDecisions cs).moves = s.moves := rfl
@[simp] theorem State.withDecisions_choices (s : State) (cs : List Move) : (s.withDecisions cs).choices = cs := rfl

theorem State.setTop_withDecisions (s : State) (cs : List Move) (d : Context) :
    (s.withDecisions cs).setTop d = (s.setTop d).withDecisions cs := by
  cases h : s.handlers <;> simp [State.setTop, State.withDecisions, h]

/-- What gives the running context a new micro-state is blind where that micro-state is. -/
theorem decisionBlind_setTop {f : State → Context} (hf : ∀ s cs, f (s.withDecisions cs) = f s) :
    DecisionBlind fun s => s.setTop (f s) := fun s cs =>
  (congrArg (State.setTop _) (hf s cs)).trans (State.setTop_withDecisions s cs (f s))

theorem decisionBlind_maskInterrupts : DecisionBlind maskInterrupts := fun s cs =>
  congrArg (State.setIe · false) (State.setTop_withDecisions s cs { s.top with sv := s.ie })

theorem decisionBlind_latchSlot (a : Addr) : DecisionBlind (latchSlot a) :=
  decisionBlind_setTop (f := fun s => { s.top with t := s.slot a }) fun _ _ => rfl

theorem decisionBlind_setRes {f : State → Word} (hf : ∀ s cs, f (s.withDecisions cs) = f s) :
    DecisionBlind fun s => s.setRes (f s) :=
  decisionBlind_setTop (f := fun s => { s.top with res := f s }) fun s cs => by rw [hf]; rfl

theorem decisionBlind_wordWriteRows {ah al : Addr} {w : Word} (h : row ∈ wordWriteRows ah al w) : DecisionBlind row := by
  simp only [wordWriteRows, List.mem_cons, List.not_mem_nil, or_false] at h
  rcases h with rfl | rfl | rfl | rfl
  · exact decisionBlind_maskInterrupts
  · exact fun _ _ => rfl
  · exact fun _ _ => rfl
  · exact fun _ _ => rfl

theorem decisionBlind_tableOf (h : row ∈ tableOf c i) : DecisionBlind row := by
  cases i with
  | rdb a => obtain rfl := List.mem_singleton.1 h; exact decisionBlind_setRes fun _ _ => rfl
  | wrb a v => obtain rfl := List.mem_singleton.1 h; exact fun _ _ => rfl
  | rdw ah al =>
    simp only [tableOf, List.mem_cons, List.not_mem_nil, or_false] at h
    rcases h with rfl | rfl | rfl | rfl
    · exact decisionBlind_maskInterrupts
    · exact decisionBlind_latchSlot ah
    · exact decisionBlind_setRes fun _ _ => rfl
    · exact fun _ _ => rfl
  | wrw ah al w => exact decisionBlind_wordWriteRows h
  | bwr a v =>
    obtain rfl := List.mem_singleton.1 h
    exact fun s cs => (apply_ite (State.withDecisions · cs) (busWritePermitted s a = true) (s.writeSlot a v) s).symm
  | weq => obtain rfl := List.mem_singleton.1 h; exact decisionBlind_setRes fun _ _ => rfl
  | wen => obtain rfl | rfl := List.mem_pair.1 h <;> [exact decisionBlind_latchSlot _; exact fun _ _ => rfl]
  | wds => obtain rfl | rfl := List.mem_pair.1 h <;> [exact decisionBlind_latchSlot _; exact fun _ _ => rfl]
  | init => obtain rfl := List.mem_singleton.1 h; exact fun _ _ => rfl
  | ldef => cases h
  | ien => obtain rfl := List.mem_singleton.1 h; exact fun _ _ => rfl
  | ids => obtain rfl := List.mem_singleton.1 h; exact fun _ _ => rfl

theorem decisionBlind_entryRows {e : DefaultEntry} (h : row ∈ entryRows e) : DecisionBlind row := by
  cases e with
  | byte a v => obtain rfl := List.mem_singleton.1 h; exact fun _ _ => rfl
  | word ah al w => exact decisionBlind_wordWriteRows h
  | bits a m v => obtain rfl | rfl := List.mem_pair.1 h <;> [exact decisionBlind_latchSlot _; exact fun _ _ => rfl]

theorem decisionBlind_phaseRows (h : row ∈ phaseRows c i n) : DecisionBlind row := by
  rcases mem_phaseRows h with h | ⟨e, h⟩ | rfl
  · exact decisionBlind_tableOf h
  · exact decisionBlind_entryRows h
  · exact fun _ _ => rfl

theorem decisionBlind_advance (o : Option Phase) : DecisionBlind (advance o) := by
  cases o with
  | none =>
    exact decisionBlind_setTop (f := fun s => { s.top with cpc := s.top.cpc + 1, phase := Phase.start }) fun _ _ => rfl
  | some q => exact decisionBlind_setTop (f := fun s => { s.top with phase := q }) fun _ _ => rfl

/-- A micro-step does the same whatever decisions are still to come. -/
theorem exec_withDecisions (h : exec i s = .next t) (cs : List Move) :
    exec i (s.withDecisions cs) = .next (t.withDecisions cs) := by
  obtain ⟨hi, row, hr, rfl⟩ := exec_next_row h
  have hexec := exec_at_row (s := s.withDecisions cs) hi hr
  rw [decisionBlind_phaseRows (List.mem_of_getElem? hr), decisionBlind_advance] at hexec
  exact hexec

/-- So does every move. -/
theorem applyMove_withDecisions (h : applyMove m s = .next t) (cs : List Move) :
    applyMove m (s.withDecisions cs) = .next (t.withDecisions cs) := by
  cases m with
  | context =>
    obtain ⟨i, ho, he⟩ := contextStep_next h
    exact (contextStep_op (s := s.withDecisions cs) ho).trans (exec_withDecisions he cs)
  | deliver k => cases h; rfl
  | handlerReturn => cases h; rfl

/-- A decision for an enabled move makes it the one chosen, whether it is used up or was not asked for. -/
theorem chooseMove_of_decision (hm : m ∈ s.moves) (cs : List Move) :
    ∃ cs', chooseMove (s.withDecisions (m :: cs)) = some (m, s.withDecisions cs') := by
  match hs : s.moves with
  | [] => simp [hs] at hm
  | [m'] =>
    obtain rfl : m = m' := by simpa [hs] using hm
    exact ⟨m :: cs, chooseMove_single hs⟩
  | m₁ :: m₂ :: ms =>
    have hc : (m₁ :: m₂ :: ms).contains m = true := List.contains_iff_mem.2 (hs ▸ hm)
    refine ⟨cs, ?_⟩
    simp only [chooseMove, State.withDecisions_moves, hs, State.withDecisions_choices, hc, if_true]
    rfl

end

/-- Settles O9: the decision for the move itself. -/
theorem everyEnabledMoveCanBeTaken : Obligations.EveryEnabledMoveCanBeTaken := by
  intro s t m hm ht
  obtain ⟨cs', hc⟩ := chooseMove_of_decision hm []
  have hstep : step (s.withDecisions [m]) = .next (t.withDecisions cs') := by
    rw [step, hc]
    exact applyMove_withDecisions ht cs'
  exact ⟨[m], t.withDecisions cs', hstep, rfl⟩

/-! ### The depth of the stack (rule R201) -/

/-- Settles O45: the handlers' sources are different numbers from 1 to NIRQ. -/
theorem stackDepthIsBounded : Obligations.StackDepthIsBounded := by
  intro s hinv hre
  have hsub : s.handlers.map Handler.source ⊆ Config.sources s.cfg := by
    intro k hk
    obtain ⟨h, hh, rfl⟩ := List.mem_map.1 hk
    obtain ⟨h1, hn⟩ := hinv.sources h hh
    exact List.mem_range'_1.2 ⟨h1, by omega⟩
  have hle := ((hinv.once hre).subperm hsub).length_le
  simp only [List.length_map, Config.sources, List.length_range'] at hle
  simp only [State.stack, List.length_cons, List.length_reverse, List.length_map]
  omega

/-! ### The states without a step (rules R199, R200) -/

section
variable {s : State} {cw : Command} {i : Instr}

theorem not_moves_of_moves_nil (h : s.moves = []) (t : State) : ¬ Moves s t := by
  rintro ⟨m, hm, -⟩
  rw [h] at hm
  cases hm

theorem Context.finished_iff {d : Context} : d.finished = true ↔ d.phase = Phase.start ∧ d.cpc = d.stream.length := by
  simp [Context.finished]

/-- Once MAIN is alone and finished, only a delivery can happen. -/
theorem moves_of_main_finished (hh : s.handlers = []) (hf : s.main.finished = true)
    (hd : ∀ k, s.deliverable k = false) : s.moves = [] ∧ s.topRefused = false := by
  have htop : s.top = s.main := by rw [State.top, hh]
  obtain ⟨hp, hcpc⟩ := Context.finished_iff.1 hf
  have hctx : s.contextEnabled = false := by simp [State.contextEnabled, Context.hasOperation, htop, hp, hcpc]
  have hret : s.returnable = false := by simp [State.returnable, hh]
  refine ⟨?_, by simp [State.topRefused, Context.word, htop, hcpc]⟩
  rw [moves_undeliverable fun k _ _ => hd k, hctx, hret]
  rfl

/-- The step there answers that the run is over, or stuck. -/
theorem step_of_main_finished (hh : s.handlers = []) (hf : s.main.finished = true) (hd : ∀ k, s.deliverable k = false) :
    (∀ t, ¬ Moves s t) ∧ step s = if s.final then .refused .finished else .fault .stuck := by
  obtain ⟨hmoves, hr⟩ := moves_of_main_finished hh hf hd
  refine ⟨not_moves_of_moves_nil hmoves, ?_⟩
  simp [step, chooseMove_none.2 hmoves, noMove, hr]

/-- A word at the start of an operation that is not refused can run. -/
theorem exists_moves_of_word (hp : s.top.phase = Phase.start) (hw : s.top.word = some cw) (hr : s.topRefused = false) :
    ∃ t, Moves s t := by
  have hok : ¬((∃ e, decode cw = .error e) ∨ (decode cw = .ok .init ∧ s.ie = true)) := by
    rw [← topRefused_iff hw hp, hr]
    exact Bool.false_ne_true
  cases hd : decode cw with
  | error e => exact absurd (.inl ⟨e, hd⟩) hok
  | ok i =>
    have hi : i = .init → s.ie = false := by
      rintro rfl
      exact Bool.eq_false_iff.2 fun hie => hok (.inr ⟨hd, hie⟩)
    obtain ⟨row, -, he⟩ := exec_legal hi (by rw [hp, legalPhase_start])
    exact ⟨_, .context, mem_moves_context.2 ⟨.inr (Context.cpc_lt_of_word hw), hr⟩,
      (contextStep_op (Context.op_of_decode hw hd)).trans he⟩

/-- With IE set and no handler on the stack a delivery that is left can happen. -/
theorem exists_moves_of_delivery (hlists : s.deliveries.length = s.cfg.nirq) (hh : s.handlers = []) (hie : s.ie = true)
    (hl : ∃ l ∈ s.deliveries, l ≠ []) : ∃ t, Moves s t := by
  obtain ⟨l, hl, hne⟩ := hl
  obtain ⟨n, hn, rfl⟩ := List.getElem_of_mem hl
  have hleft : s.deliveries.getD (n + 1 - 1) [] ≠ [] := by rwa [Nat.add_sub_cancel, List.getD_eq_getElem _ _ hn]
  have hk : s.deliverable (n + 1) = true := deliverable_iff.2 ⟨hie, hleft, .inr (by simp [hh])⟩
  exact ⟨takeInterrupt (n + 1) s, .deliver (n + 1), mem_moves_deliver.2 ⟨by omega, by omega, hk⟩, rfl⟩

/-- A context without a word that is between operations has finished. -/
theorem Context.finished_of_no_word {cfg : Config} {d : Context} (hv : d.valid cfg = true) (hp : d.phase = Phase.start)
    (hw : d.word = none) : d.finished = true := by
  have hge := List.getElem?_eq_none_iff.1 hw
  exact Context.finished_iff.2 ⟨hp, Nat.le_antisymm (Context.cpc_le_of_valid hv) hge⟩

/-- With MAIN alone and finished, what the state lacks to be final is a delivery that is left. -/
theorem final_eq_false_iff (hh : s.handlers = []) (hf : s.main.finished = true) :
    s.final = false ↔ ∃ l ∈ s.deliveries, l ≠ [] := by
  simp [State.final, hh, hf]

theorem final_iff :
    s.final = true ↔ s.handlers = [] ∧ s.main.finished = true ∧ ∀ l ∈ s.deliveries, l = [] := by
  simp [State.final, and_assoc]

/-- Where every list is empty no source can be delivered. -/
theorem deliverable_of_none_left (h : ∀ l ∈ s.deliveries, l = []) (k : Nat) : s.deliverable k = false := by
  have hk : s.remaining k = [] := List.eq_nil_iff_forall_not_mem.2 fun st hst => by
    have hmem := mem_flatten_of_mem_getD hst
    rw [List.flatten_eq_nil_iff.2 h] at hmem
    cases hmem
  simp [State.deliverable, hk]

end

/-- Settles O47, by what the running context stands at: the middle of an operation, a word, or the end of its stream. -/
theorem stuckStatesAreTheTwo : Obligations.StuckStatesAreTheTwo := by
  intro s hinv
  refine ⟨fun hno hfin => ?_, fun hh hf hie hl => ?_, fun hfin => ?_⟩
  · have hp : s.top.phase = Phase.start := by
      by_contra hp
      obtain ⟨hm, t, ht⟩ := noContextIsStuckInsideAnOperation s hinv hp
      exact hno t ⟨_, hm, ht⟩
    cases hw : s.top.word with
    | some cw =>
      refine .inl ⟨hp, cw, rfl, (topRefused_iff hw hp).1 ?_⟩
      by_contra hr
      obtain ⟨t, ht⟩ := exists_moves_of_word hp hw (Bool.eq_false_iff.2 hr)
      exact hno t ht
    | none =>
      have hf := Context.finished_of_no_word (hinv.valid _ s.top_mem_stack) hp hw
      have hh : s.handlers = [] := by
        by_contra hne
        exact hno _ ⟨.handlerReturn, mem_moves_handlerReturn.2 ⟨hne, Context.finished_iff.1 hf⟩, rfl⟩
      rw [State.top, hh] at hf
      have hl := (final_eq_false_iff hh hf).1 hfin
      refine .inr ⟨hh, hf, Bool.eq_false_iff.2 fun hie => ?_, hl⟩
      obtain ⟨t, ht⟩ := exists_moves_of_delivery hinv.lists hh hie hl
      exact hno t ht
  · have hstep := step_of_main_finished hh hf fun k => by simp [State.deliverable, hie]
    rwa [(final_eq_false_iff hh hf).2 hl] at hstep
  · obtain ⟨hh, hf, hempty⟩ := final_iff.1 hfin
    have hstep := step_of_main_finished hh hf (deliverable_of_none_left hempty)
    rwa [hfin] at hstep

/-! ### Every run is finite (rule R200)

What the contexts on the stack and the streams still to be delivered can use up is a number, and every move makes it less. -/

/-- The micro-steps of a command word: those of its operation, none of an illegal one. -/
def wordSteps (c : Config) (cw : Command) : Nat := (decode cw).toOption.elim 0 (opSteps c)

/-- The micro-steps of a stream run from its start. -/
def streamSteps (c : Config) (st : Stream) : Nat := (st.map (wordSteps c)).sum

/-- The micro-steps of a context to the end of its stream: those of the operation it is in, and those of the words after it. -/
def Context.microSteps (cfg : Config) (d : Context) : Nat :=
  d.op.elim 0 (stepsLeft cfg · d.phase) + streamSteps cfg (d.stream.drop (d.cpc + 1))

/-- The moves a context can still use up: its micro-steps, and its return. -/
def Context.movesLeft (cfg : Config) (d : Context) : Nat := d.microSteps cfg + 1

/-- The moves a stream still to be delivered can use up: its delivery too. -/
def streamMoves (cfg : Config) (st : Stream) : Nat := streamSteps cfg st + 2

/-- The moves that can still happen, at most. -/
def State.movesLeft (s : State) : Nat :=
  (s.stack.map (Context.movesLeft s.cfg)).sum + (s.deliveries.flatten.map (streamMoves s.cfg)).sum

section
variable {s t : State} {i : Instr} {k : Nat} {d : Context}

theorem streamSteps_cons (c : Config) (cw : Command) (st : Stream) :
    streamSteps c (cw :: st) = wordSteps c cw + streamSteps c st := rfl

/-- Between operations all words from the command index on are left. -/
theorem Context.microSteps_start (cfg : Config) (h : d.phase = Phase.start) :
    d.microSteps cfg = streamSteps cfg (d.stream.drop d.cpc) := by
  by_cases hlt : d.cpc < d.stream.length
  · have hop : d.op = (decode d.stream[d.cpc]).toOption := by simp [Context.op, Context.word, List.getElem?_eq_getElem hlt]
    simp only [Context.microSteps, hop, h, stepsLeft_start, List.drop_eq_getElem_cons hlt, streamSteps_cons, wordSteps]
  · have hop : d.op = none := by simp [Context.op, Context.word, List.getElem?_eq_none (Nat.le_of_not_lt hlt)]
    rw [Context.microSteps, hop, List.drop_eq_nil_of_le (by omega), List.drop_eq_nil_of_le (by omega)]
    rfl

/-- A micro-step uses up one of the running context's. -/
theorem exec_next_microSteps (h : exec i s = .next t) (ho : s.top.op = some i) :
    s.top.microSteps s.cfg = t.top.microSteps s.cfg + 1 := by
  obtain ⟨hout, hphase, hcpc⟩ := exec_next_frame h
  obtain ⟨-, row, hr, -⟩ := exec_next_row h
  have hlegal : legalPhase s.cfg i s.top.phase = true := legalPhase_iff.2 (List.getElem?_eq_some_iff.1 hr).1
  cases hnext : nextPhase s.cfg i s.top.phase with
  | none =>
    rw [hnext] at hphase hcpc
    rw [Context.microSteps_start s.cfg hphase, hout.stream, hcpc, Context.microSteps, ho, Option.elim_some,
      stepsLeft_last hlegal hnext, if_pos rfl, Nat.add_comm]
  | some q =>
    rw [hnext] at hphase hcpc
    have hop : t.top.op = some i := (Context.op_congr hout.stream hcpc).trans ho
    rw [Context.microSteps, Context.microSteps, ho, hop, hout.stream, hcpc, hphase, Option.elim_some, Option.elim_some,
      stepsLeft_nextPhase hlegal hnext, Option.getD_some, if_neg (by simp)]
    omega

/-- Taking the first stream of a list of streams out takes it out of all of them. -/
theorem flatten_perm_of_getD {ds : List (List Stream)} {n : Nat} {H : Stream} {rest : List Stream}
    (h : ds.getD n [] = H :: rest) : ds.flatten.Perm (H :: (ds.set n rest).flatten) := by
  induction ds generalizing n with
  | nil => simp at h
  | cons l ls ih =>
    cases n with
    | zero =>
      obtain rfl : l = H :: rest := by simpa using h
      exact List.Perm.refl _
    | succ n =>
      have hls := ih (n := n) (by simpa using h)
      exact (hls.append_left l).trans List.perm_middle

/-- A micro-step leaves fewer moves. -/
theorem movesLeft_exec (ho : s.top.op = some i) (he : exec i s = .next t) : t.movesLeft < s.movesLeft := by
  obtain ⟨hout, -, -⟩ := exec_next_frame he
  have hstep := exec_next_microSteps he ho
  simp only [State.movesLeft, State.stack_eq, hout.below, hout.cfg, hout.deliveries, List.map_append, List.sum_append,
    List.map_singleton, List.sum_singleton, Context.movesLeft]
  omega

/-- A delivery leaves fewer: the new context has its stream to run, and that stream is no more to be delivered. -/
theorem movesLeft_takeInterrupt (hd : s.deliverable k = true) : (takeInterrupt k s).movesLeft < s.movesLeft := by
  obtain ⟨H, rest, hrest⟩ := List.exists_cons_of_ne_nil (deliverable_iff.1 hd).2.1
  have hds := takeInterrupt_deliveries (k := k) hrest
  have hnew : (Context.fresh H s.draws).movesLeft s.cfg = streamSteps s.cfg H + 1 :=
    congrArg (· + 1) (Context.microSteps_start s.cfg rfl)
  have hsum := ((flatten_perm_of_getD hrest).map (streamMoves s.cfg)).sum_eq
  rw [List.map_cons, List.sum_cons, streamMoves] at hsum
  simp only [State.movesLeft, takeInterrupt_stack, takeInterrupt_cfg, hds, State.remaining, hrest, List.headD_cons,
    List.map_append, List.sum_append, List.map_singleton, List.sum_singleton, hnew, hsum]
  omega

/-- A return leaves fewer: the context that is gone had at least its return left. -/
theorem movesLeft_returnFromHandler (hne : s.handlers ≠ []) : (returnFromHandler s).movesLeft < s.movesLeft := by
  simp only [State.movesLeft, returnFromHandler_stack s hne, s.stack_eq, returnFromHandler_cfg, returnFromHandler_deliveries,
    List.map_append, List.sum_append, List.map_singleton, List.sum_singleton, Context.movesLeft]
  omega

/-- Every move leaves fewer moves. -/
theorem movesLeft_moves (h : Moves s t) : t.movesLeft < s.movesLeft := by
  rcases moves_cases h with ⟨i, ho, he⟩ | ⟨k, -, hd, rfl⟩ | ⟨hne, rfl⟩
  · exact movesLeft_exec ho he
  · exact movesLeft_takeInterrupt hd
  · exact movesLeft_returnFromHandler hne

end

/-- Settles O48: the number of moves left would decrease for ever. It does so from any state, the invariant is not used. -/
theorem everyRunIsFinite : Obligations.EveryRunIsFinite := fun f _ hf =>
  not_strictAnti_of_wellFoundedLT (fun n => (f n).movesLeft) (strictAnti_nat_of_succ_lt fun n => movesLeft_moves (hf n))

end Sys2Proof.Machine

/-! ## Boot order (70_reset_and_hazards.md rule R222): MAIN runs masked and alone until INIT has completed -/

namespace Sys2Proof.Machine

section
variable {s t : State} {i : Instr} {c : Config} {row : State → State}

/-! ### IE once it is clear (rules R122, R125, R180) -/

/-- Where IE is 0, and 0 is what a word access would give back, a row leaves it at 0 (but for IEN, which sets it, and IDS). -/
theorem phaseRows_ie_false (hn : i ≠ .ien) (hs : i ≠ .ids) (hie : s.ie = false) (hheld : heldIe i s = false)
    (hr : (phaseRows s.cfg i s.top.phase.entry)[s.top.phase.sub]? = some row) : (row s).ie = false := by
  cases hin : insideWordAccess s.cfg i ⟨s.top.phase.entry, s.top.phase.sub + 1⟩ with
  | true => exact phaseRows_masks hr hin fun _ => hie
  | false =>
    have hrow := phaseRows_heldIe hn hs hr s
    rw [hin] at hrow
    exact hrow.trans hheld

/-- IDS is no word access. -/
theorem heldIe_ids : heldIe .ids s = s.ie := by simp [heldIe, insideWordAccess]

/-- So a micro-step of an operation other than IEN keeps both at 0. -/
theorem exec_next_ie_false (h : exec i s = .next t) (hn : i ≠ .ien) (hie : s.ie = false) (hheld : heldIe i s = false) :
    t.ie = false ∧ heldIe i t = false := by
  by_cases hs : i = .ids
  · subst hs
    obtain ⟨o, rfl⟩ := exec_next_of_tableOf_singleton h rfl
    have ht : (advance o (s.setIe false)).ie = false := advance_ie _ _
    exact ⟨ht, heldIe_ids.trans ht⟩
  · obtain ⟨-, row, hr, rfl⟩ := exec_next_row h
    exact ⟨(advance_ie _ _).trans (phaseRows_ie_false hn hs hie hheld hr), (heldIe_advance_row hn hs hr).trans hheld⟩

/-! ### MAIN's index (rule R27) -/

/-- A micro-step of whatever context does not take MAIN's index back. -/
theorem exec_main_cpc_le (h : exec i s = .next t) : s.main.cpc ≤ t.main.cpc := by
  obtain ⟨hout, -, hcpc⟩ := exec_next_frame h
  have htop : s.top.cpc ≤ t.top.cpc := by rw [hcpc]; split <;> omega
  have hs := s.stack_eq
  have ht := t.stack_eq
  rw [hout.below] at ht
  cases hb : s.below with
  | nil =>
    rw [hb] at hs ht
    rwa [(List.cons.inj hs).1, (List.cons.inj ht).1]
  | cons d ds =>
    rw [hb] at hs ht
    rw [(List.cons.inj hs).1, (List.cons.inj ht).1]

/-- No move does: a delivery and a return leave MAIN as it is. -/
theorem moves_main_cpc_le (h : Moves s t) : s.main.cpc ≤ t.main.cpc := by
  rcases moves_cases h with ⟨i, -, he⟩ | ⟨k, -, -, rfl⟩ | ⟨-, rfl⟩
  · exact exec_main_cpc_le he
  · exact Nat.le_refl _
  · exact Nat.le_refl _

/-! ### The operations of a boot up to its first INIT -/

/-- The operation of a context is that of the word at its index. -/
theorem Context.word_of_op {d : Context} (h : d.op = some i) : ∃ cw, d.word = some cw ∧ decode cw = .ok i := by
  cases hw : d.word with
  | none => simp [Context.op, hw] at h
  | some cw =>
    cases hd : decode cw with
    | error e => simp [Context.op, hw, hd, Except.toOption] at h
    | ok j =>
      obtain rfl : j = i := Option.some.inj ((Context.op_of_decode hw hd).symm.trans h)
      exact ⟨cw, rfl, hd⟩

/-- INIT reads no slot (rule R160). -/
theorem allowedBeforeInit_init (c : Config) : allowedBeforeInit c .init = true := rfl

/-- A conforming boot stream has only allowed operations up to its first INIT, INIT itself among them. -/
theorem allowedBeforeInit_of_bootConforms {st : Stream} {n : Nat} {cw : Command} (hb : bootConforms c st = true)
    (hn : n ≤ initIndex st) (hw : st[n]? = some cw) (hd : decode cw = .ok i) : allowedBeforeInit c i = true := by
  induction st generalizing n with
  | nil => cases hw
  | cons w rest ih =>
    cases hdw : decode w with
    | error e => simp [bootConforms, hdw] at hb
    | ok j =>
      have hj : j = .init ∨ (allowedBeforeInit c j = true ∧ bootConforms c rest = true) := by
        simpa [bootConforms, hdw] using hb
      cases n with
      | zero =>
        obtain rfl : w = cw := Option.some.inj hw
        obtain rfl : j = i := Except.ok.inj (hdw.symm.trans hd)
        rcases hj with rfl | ⟨hj, -⟩
        · exact allowedBeforeInit_init c
        · exact hj
      | succ n =>
        have hne : decode w ≠ .ok .init := fun hinit => by simp [initIndex, hinit] at hn
        rw [initIndex, if_neg hne] at hn
        rcases hj with rfl | ⟨-, hrest⟩
        · exact absurd hdw hne
        · exact ih hrest (Nat.le_of_succ_le_succ hn) hw

/-- So MAIN does not run IEN there. -/
theorem main_op_ne_ien (hb : bootConforms s.cfg s.main.stream = true) (hle : s.main.cpc ≤ initIndex s.main.stream)
    (ho : s.main.op = some i) : i ≠ .ien := by
  rintro rfl
  obtain ⟨cw, hw, hd⟩ := Context.word_of_op ho
  have hallowed := allowedBeforeInit_of_bootConforms hb hle hw hd
  simp [allowedBeforeInit] at hallowed

/-! ### Masked and alone

IE = 0 shuts deliveries out, but a word access before INIT ends by restoring what it saved, so the invariant has to say
that this is 0 too. -/

/-- MAIN is the running context and IE is 0, and will be after the operation that MAIN is in. -/
structure MaskedAlone (s : State) : Prop where
  ie : s.ie = false
  alone : s.handlers = []
  held : ∀ i, s.main.op = some i → heldIe i s = false

/-- With no handler on the stack MAIN runs. -/
theorem State.top_of_handlers_nil (h : s.handlers = []) : s.top = s.main := by rw [State.top, h]

/-- A launch begins so: MAIN is between operations, and what its fresh sv holds does not matter. -/
theorem maskedAlone_initial (l : Launch) : MaskedAlone l.initial := ⟨rfl, rfl, fun _ _ => heldIe_start rfl⟩

/-- A micro-step of an operation other than IEN leaves MAIN masked and alone. -/
theorem maskedAlone_exec (h : MaskedAlone s) (ho : s.main.op = some i) (hn : i ≠ .ien) (he : exec i s = .next t) :
    MaskedAlone t := by
  obtain ⟨hout, -, -⟩ := exec_next_frame he
  obtain ⟨hie, hheld⟩ := exec_next_ie_false he hn h.ie (h.held i ho)
  have halone : t.handlers = [] := List.map_eq_nil_iff.1 (by rw [hout.sources, h.alone]; rfl)
  refine ⟨hie, halone, fun j hj => ?_⟩
  rw [← State.top_of_handlers_nil h.alone] at ho
  rw [← State.top_of_handlers_nil halone] at hj
  by_cases hp : t.top.phase = Phase.start
  · exact (heldIe_start hp).trans hie
  · obtain rfl : j = i := Option.some.inj (hj.symm.trans (exec_next_op he ho hp).1)
    exact hheld

/-- So does any move up to the first INIT: with IE = 0 there is no delivery, and with no handler no return. -/
theorem maskedAlone_moves (h : MaskedAlone s) (hb : bootConforms s.cfg s.main.stream = true)
    (hle : s.main.cpc ≤ initIndex s.main.stream) (hm : Moves s t) : MaskedAlone t := by
  rcases moves_cases hm with ⟨i, ho, he⟩ | ⟨k, -, hd, -⟩ | ⟨hne, -⟩
  · rw [State.top_of_handlers_nil h.alone] at ho
    exact maskedAlone_exec h ho (main_op_ne_ien hb hle ho) he
  · obtain ⟨hie, -, -⟩ := deliverable_iff.1 hd
    rw [h.ie] at hie
    cases hie
  · exact absurd h.alone hne

/-- And so does a run until MAIN has passed its first INIT; MAIN's index never falls, so it had not passed it before. -/
theorem maskedAlone_reaches (h : MaskedAlone s) (hb : bootConforms s.cfg s.main.stream = true) (hr : Reaches s t)
    (hle : t.main.cpc ≤ initIndex s.main.stream) : MaskedAlone t := by
  induction hr with
  | start => exact h
  | move hr hm ih =>
    obtain ⟨hcfg, hmain, -⟩ := reaches_streams hr
    have hle' := (moves_main_cpc_le hm).trans hle
    exact maskedAlone_moves (ih hle') (by rwa [hcfg, hmain]) (by rwa [hmain]) hm

end

/-- Settles O53: a launch begins masked and alone, and every move keeps that until MAIN has passed INIT. -/
theorem bootRunsMaskedUntilInit : Obligations.BootRunsMaskedUntilInit := by
  intro l s hb hr hle
  have h := maskedAlone_reaches (maskedAlone_initial l) hb hr hle
  exact ⟨h.ie, h.alone⟩

end Sys2Proof.Machine
